-- ==== Sys2Proof/Word.lean ====
section
/-! DEFINITION. The word and byte types of the block (spec/00_scope.md R9, spec/10_state.md R30). -/

namespace Sys2Proof

/-- One byte of a byte string (R10). -/
abbrev Byte := BitVec 8

/-- The value of one 32-bit register, or of one bus word (R9, R30, R93). -/
abbrev Word := BitVec 32

/-- A 64-byte buffer of sixteen registers: KEY0..KEY15 or DIGEST0..DIGEST15 (R43, R49). -/
abbrev Buffer := Vector Word 16

end Sys2Proof
end

