-- ==== Sys2Proof/Syntax.lean ====
section
/-! DEFINITION. The commands of the block: the rows of spec/opcode_table.json (spec/30_encoding.md R120 to R122). -/

namespace Sys2Proof

/-- A command. A command word holds no register number, immediate or mode (R120), so no constructor has an
argument: every operand comes from the registers of R127. -/
inductive Instr where
  /-- HMAC of the counter (R173). -/
  | hmac
  /-- Truncation of the digest buffer (R154). -/
  | trunc
  /-- HMAC, then truncation (R240). -/
  | hotp
  /-- Erasure of the key and the results (R250). -/
  | zeroize
deriving DecidableEq, Repr

end Sys2Proof
end

