-- ==== Sys2Proof/WellFormed.lean ====
section
/-! DEFINITION. Well-formed commands and command words (spec/30_encoding.md R120, R123). -/

namespace Sys2Proof

/-- Every command is well formed: it has no operand field that could be out of range (R120, R125). -/
def Instr.wellFormed : Instr → Bool
  | .hmac => true
  | .trunc => true
  | .hotp => true
  | .zeroize => true

/-- RSV, bits 31:4, must be zero (R120). -/
def reservedBitsZero (w : Word) : Bool :=
  w.extractLsb' 4 28 == 0

/-- OP, bits 3:0, must be one of the four opcodes of R122. -/
def opcodeDefined (w : Word) : Bool :=
  1 ≤ (w.extractLsb' 0 4).toNat && (w.extractLsb' 0 4).toNat ≤ 4

/-- A command word that is not one of R123's illegal encodings. -/
def commandWordWellFormed (w : Word) : Bool :=
  reservedBitsZero w && opcodeDefined w

end Sys2Proof
end

