-- ==== Sys2Proof/Decode.lean ====
section
/-! DEFINITION. Decoding and encoding of command words (spec/30_encoding.md R120 to R125). -/

namespace Sys2Proof

/-- Why a word is ILLEGAL (R123). The block reports both by one error, ILLEGAL_COMMAND (R251). -/
inductive Illegal where
  /-- Bits 31:4 are not all zero. -/
  | reservedBits
  /-- The opcode is 0x0 or one of 0x5 to 0xF. -/
  | reservedOpcode
deriving DecidableEq, Repr

/-- The field RSV, bits 31:4 of a command word (R120). -/
def rsvField (w : Word) : BitVec 28 :=
  w.extractLsb' 4 28

/-- The field OP, bits 3:0 of a command word (R120). -/
def opField (w : Word) : BitVec 4 :=
  w.extractLsb' 0 4

/-- `decode(w)` (R121): total, every word is one of the four commands or ILLEGAL. -/
def decode (w : Word) : Except Illegal Instr :=
  if rsvField w ≠ 0 then .error .reservedBits
  else if opField w = 0x1 then .ok .hmac
  else if opField w = 0x2 then .ok .trunc
  else if opField w = 0x3 then .ok .hotp
  else if opField w = 0x4 then .ok .zeroize
  else .error .reservedOpcode

/-- The command word of a command (R122). -/
def encode : Instr → Word
  | .hmac => 0x00000001
  | .trunc => 0x00000002
  | .hotp => 0x00000003
  | .zeroize => 0x00000004

/-- The command the decoder reads from a word whose `nbits` low bits are given and whose other bits are zero.
A command is exactly one 32-bit word (R125), so nothing longer is a command. -/
def decodeTableWord (nbits w : Nat) : Option Instr :=
  if nbits ≤ 32 then
    match decode (BitVec.ofNat 32 (w % 2 ^ nbits)) with
    | .ok i => some i
    | .error _ => none
  else none

end Sys2Proof
end

