-- ==== Sys2Proof/Machine/Bytes.lean ====
section
/-! DEFINITION. Byte strings and their big-endian reading (spec/00_scope.md R10, R11; spec/20_memory.md R92). -/

namespace Sys2Proof.Machine

/-- `be(B)`: the unsigned big-endian integer of a byte string (R10). -/
def be (bs : List Byte) : Nat :=
  bs.foldl (fun acc b => acc * 256 + b.toNat) 0

/-- `be_n(v)`: the n-byte big-endian encoding of `v mod 256^n` (R10). -/
def beBytes : Nat → Nat → List Byte
  | 0, _ => []
  | n + 1, v => BitVec.ofNat 8 (v / 256 ^ n) :: beBytes n v

/-- `0x00^n` (R10). -/
def zeroBytes (n : Nat) : List Byte :=
  List.replicate n 0

/-- `B[i +: n]`: the n bytes from index i on (R10). -/
def window (bs : List Byte) (i n : Nat) : List Byte :=
  (bs.drop i).take n

/-- The bytewise exclusive OR of two byte strings of one length (R172). -/
def xorBytes (a b : List Byte) : List Byte :=
  List.zipWith (fun x y => x ^^^ y) a b

/-- The first `k` consecutive pieces of `n` elements each (R191, R210). -/
def pieces {α : Type} (n : Nat) : Nat → List α → List (List α)
  | 0, _ => []
  | k + 1, l => l.take n :: pieces n k (l.drop n)

/-- The bytes of a buffer of registers: `be_4(x[R0]) || … || be_4(x[R15])` (R12, R43, R49). -/
def bufferBytes (b : Buffer) : List Byte :=
  b.toList.flatMap (fun w => beBytes 4 w.toNat)

/-- The buffer whose i-th register is `be(E[4i +: 4])`, for a byte string E of 64 bytes (R174). -/
def bufferOfBytes (e : List Byte) : Buffer :=
  ⟨((List.range 16).map (fun i => BitVec.ofNat 32 (be (window e (4 * i) 4)))).toArray, by simp⟩

end Sys2Proof.Machine
end

