-- ==== Sys2Proof/Config.lean ====
section
/-! DEFINITION. The parameters of a build: OTP_BASE, HAS_SHA512 and LAT (spec/00_scope.md R8). -/

namespace Sys2Proof

/-- The digest algorithms (R3, R33). -/
inductive Alg where
  | sha1
  | sha256
  | sha512
deriving DecidableEq, Repr

/-- The commands that run to a completion step: the values of PENDING other than NONE (R52). -/
inductive Op where
  | hmac
  | trunc
  | hotp
deriving DecidableEq, Repr

/-- For one command, the number of internal CORE steps before `complete()`, for each algorithm: LAT - 1 (R257). -/
structure InternalSteps where
  sha1 : Nat
  sha256 : Nat
  sha512 : Nat
deriving DecidableEq, Repr

/-- The build parameters that R8 leaves OPEN, as plain data that no step changes. OTP_BASE is held as a page
number and LAT as LAT - 1, so that every value is a legal one: OTP_BASE is 4096-byte aligned and LAT is at
least 1. -/
structure Config where
  /-- OTP_BASE / 4096 (R8, R90). -/
  basePage : Nat
  /-- HAS_SHA512 (R3, R8). -/
  hasSha512 : Bool
  /-- LAT(HMAC, alg) - 1 (R8, R320). -/
  hmacSteps : InternalSteps
  /-- LAT(TRUNC, alg) - 1 (R8, R320). -/
  truncSteps : InternalSteps
  /-- LAT(HOTP, alg) - 1 (R8, R320). -/
  hotpSteps : InternalSteps
deriving DecidableEq, Repr

/-- The parameters that `State.reset` stands with. HAS_SHA512 is false for the block as named (R3, R8).
OTP_BASE = 0 and LAT = 1 are DESIGN CHOICE (notes/assumptions/1.md): the spec leaves both OPEN. Unsafe: no
statement may rest on them, so a statement about reset is made for `State.resetOf` of every build. -/
def Config.named : Config where
  basePage := 0
  hasSha512 := false
  hmacSteps := ⟨0, 0, 0⟩
  truncSteps := ⟨0, 0, 0⟩
  hotpSteps := ⟨0, 0, 0⟩

end Sys2Proof
end

