-- ==== Sys2Proof/Machine/State.lean ====
section
/-! DEFINITION. The state of the block, its inputs, its faults and its state after reset
(spec/10_state.md R30 to R55; spec/70_reset_and_hazards.md R300, R301). -/

namespace Sys2Proof.Machine

/-! ### Names -/

/-- The registers of R30's map. CMD holds no state (R37); ID and CAPS are constants (R31, R32). -/
inductive Reg where
  | id
  | caps
  | ctrl
  | cmd
  | status
  | irqEn
  | keyLen
  | counterHi
  | counterLo
  | truncOffset
  | truncValue
  | code
  | codeBcdLo
  | codeBcdHi
  | key (i : Fin 16)
  | digest (i : Fin 16)
deriving DecidableEq, Repr

/-- The command errors of R271. They are results of a HOST step, reported in STATUS; they stop nothing (R270). -/
inductive CmdError where
  | invalidSecret
  | invalidDigits
  | invalidAlg
  | keyTooLong
  | illegalCommand
deriving DecidableEq, Repr

/-! ### The block's own state -/

/-- The stored fields of STATUS (R39, R40, R41). BUSY is not stored: it is 1 exactly when PENDING is not NONE
(R52). -/
structure Status where
  /-- STATUS.DONE, bit 1 (R39). -/
  done : Bool
  /-- STATUS.ERR, bit 2 (R40). -/
  err : Bool
  /-- STATUS.WIGN, bit 3 (R41). -/
  wign : Bool
  /-- STATUS.ERR_CODE, bits 7:4 (R40). -/
  errCode : BitVec 4
deriving DecidableEq, Repr

/-- Every piece of state the spec gives the block (R30, R50, R52). -/
structure Block where
  /-- CTRL (R33 to R36). -/
  ctrl : Word
  /-- STATUS, less BUSY (R39 to R41). -/
  status : Status
  /-- IRQ_EN (R42). -/
  irqEn : Word
  /-- KEY_LEN (R44). -/
  keyLen : Word
  /-- COUNTER_HI (R45). -/
  counterHi : Word
  /-- COUNTER_LO (R45). -/
  counterLo : Word
  /-- TRUNC_OFFSET (R46). -/
  truncOffset : Word
  /-- TRUNC_VALUE (R46). -/
  truncValue : Word
  /-- CODE (R47). -/
  code : Word
  /-- CODE_BCD_LO (R47). -/
  codeBcdLo : Word
  /-- CODE_BCD_HI (R47). -/
  codeBcdHi : Word
  /-- KEY0 .. KEY15 (R43). -/
  key : Buffer
  /-- DIGEST0 .. DIGEST15 (R49). -/
  digest : Buffer
  /-- PENDING; `none` is the spec's NONE (R52). -/
  pending : Option Op
  /-- The number of CORE steps left before completion, 0 when none is pending (R52, R320). -/
  left : Nat
deriving DecidableEq, Repr

/-! ### The agents' steps, as inputs (R15) -/

/-- A host access (R13): a bus address, a width in bytes and, for a write, the bus word. -/
inductive Access where
  | read (addr width : Nat)
  | write (addr width : Nat) (value : Word)
deriving DecidableEq, Repr

/-- One agent's turn (R15): a HOST access, a CORE step or a RESET step. -/
inductive Event where
  | host (a : Access)
  | core
  | reset
deriving DecidableEq, Repr

/-- What the block answered to the last host access. This is the model's own field: it is how a register value
reaches the host (R324), not state of the block (notes/assumptions/3.md, DESIGN CHOICE, safe). -/
inductive Reply where
  /-- No access has been answered since reset. -/
  | none
  /-- A read was answered with this word (R252). -/
  | data (value : Word)
  /-- A write was taken (R253). -/
  | written
  /-- The access was outside the window, so it never reached the block (R91). -/
  | notForBlock
deriving DecidableEq, Repr

/-- The machine: one build, the block's state, the turns still to come and the last answer. -/
structure State where
  /-- The build parameters (R8); no step changes them. -/
  cfg : Config
  /-- The block's state. -/
  block : Block
  /-- The turns of the agents still to come, first one first (R15: any interleaving is some list). -/
  inbox : List Event
  /-- The answer to the last host access. -/
  reply : Reply
deriving DecidableEq, Repr

/-- Why a step stops. -/
inductive Fault where
  /-- The bus error of R94 and R278, raised by a HOST access inside the window whose width is not 4 or whose
  offset is not a multiple of 4. Safe: the spec makes it a fault of the HOST step, and it changes no state. -/
  | busError (off width : Nat)
deriving DecidableEq, Repr

/-- Why a step has no meaning. -/
inductive Refusal where
  /-- An instruction whose meaning has not been written. No arm of exec raises it. Safe. -/
  | notModelled (mnemonic : String)
deriving DecidableEq, Repr

/-! ### Reset (R301) -/

/-- Sixteen zero registers. -/
def zeroBuffer : Buffer :=
  Vector.replicate 16 0

/-- The block's state after a RESET step (R301). -/
def Block.reset : Block where
  ctrl := 0x00000600
  status := { done := false, err := false, wign := false, errCode := 0 }
  irqEn := 0
  keyLen := 0
  counterHi := 0
  counterLo := 0
  truncOffset := 0
  truncValue := 0
  code := 0
  codeBcdLo := 0
  codeBcdHi := 0
  key := zeroBuffer
  digest := zeroBuffer
  pending := none
  left := 0

/-- The machine right after reset, for a build (R300, R301): no turn is waiting and nothing was answered. -/
def State.resetOf (cfg : Config) : State where
  cfg := cfg
  block := Block.reset
  inbox := []
  reply := .none

/-- The machine right after reset, for the block as named (R3, R301). -/
def State.reset : State :=
  State.resetOf Config.named

end Sys2Proof.Machine
end

