-- ==== Sys2Proof/Machine/Operands.lean ====
section
/-! DEFINITION. The operands of the commands, read from the registers (spec/30_encoding.md R126, R127;
spec/10_state.md R33 to R35, R43 to R45, R49; spec/41_hmac.md R170). -/

namespace Sys2Proof.Machine

/-- STATUS.BUSY (R38): 1 exactly when PENDING is not NONE (R52). -/
def busy (b : Block) : Bool :=
  b.pending.isSome

/-- CTRL.ALG, bits 1:0 (R33). -/
def ctrlAlg (b : Block) : BitVec 2 :=
  b.ctrl.extractLsb' 0 2

/-- CTRL.DIGITS, bits 11:8 (R34). -/
def ctrlDigits (b : Block) : Nat :=
  (b.ctrl.extractLsb' 8 4).toNat

/-- CTRL.KEEP_KEY, bit 16 (R35). -/
def ctrlKeepKey (b : Block) : Bool :=
  b.ctrl.getLsbD 16

/-- Whether an ALG value selects an algorithm of this build (R33, R273). -/
def algLegal (cfg : Config) (alg : BitVec 2) : Bool :=
  alg != 3 && (alg != 2 || cfg.hasSha512)

/-- The algorithm an ALG value selects (R33, R170). ALG = 3 reaches no use of it, since acceptance refuses it
(R273) and CTRL cannot change afterwards (R254); the model reads it as SHA-512 in the states no run reaches
(notes/assumptions/5.md, DESIGN CHOICE, unsafe only there). -/
def algOf (alg : BitVec 2) : Alg :=
  if alg = 0 then .sha1 else if alg = 1 then .sha256 else .sha512

/-- L, the digest length in bytes (R8, R170). -/
def digestLength : Alg → Nat
  | .sha1 => 20
  | .sha256 => 32
  | .sha512 => 64

/-- B, the block size of the hash in bytes (R170). -/
def blockLength : Alg → Nat
  | .sha1 => 64
  | .sha256 => 64
  | .sha512 => 128

/-- The algorithm CTRL selects. -/
def selectedAlg (b : Block) : Alg :=
  algOf (ctrlAlg b)

/-- The key a command uses: `KEYBYTES[0 +: KEY_LEN]` (R43, R175). KEY_LEN is read as the whole register; a run
holds it below 128 (R44; notes/assumptions/5.md, DESIGN CHOICE). -/
def keyOperand (b : Block) : List Byte :=
  window (bufferBytes b.key) 0 b.keyLen.toNat

/-- COUNTER (R12, R45). -/
def counter (b : Block) : Nat :=
  b.counterHi.toNat * 2 ^ 32 + b.counterLo.toNat

/-- The message: `be_8(COUNTER)` (R45, R173). -/
def messageOperand (b : Block) : List Byte :=
  beBytes 8 (counter b)

/-- The digest a TRUNC command reads: `DIGESTBYTES[0 +: L]` (R49, R154). -/
def digestOperand (b : Block) : List Byte :=
  window (bufferBytes b.digest) 0 (digestLength (selectedAlg b))

/-- The internal steps of a command, for each algorithm. -/
def internalSteps (cfg : Config) : Op → InternalSteps
  | .hmac => cfg.hmacSteps
  | .trunc => cfg.truncSteps
  | .hotp => cfg.hotpSteps

/-- LAT(op, alg): the number of CORE steps from acceptance to completion, at least 1 (R8, R320). -/
def latency (cfg : Config) (op : Op) : Alg → Nat
  | .sha1 => (internalSteps cfg op).sha1 + 1
  | .sha256 => (internalSteps cfg op).sha256 + 1
  | .sha512 => (internalSteps cfg op).sha512 + 1

end Sys2Proof.Machine
end

