-- ==== Sys2Proof/Machine/Flags.lean ====
section
/-! DEFINITION. STATUS and the interrupt line (spec/10_state.md R38 to R41; spec/60_exceptions.md R271, R279,
R280). -/

namespace Sys2Proof.Machine

/-- A flag as a bit of a register. -/
def flagBit (f : Bool) (position : Nat) : Word :=
  if f then 1 <<< position else 0

/-- STATUS as a bus read returns it (R252). -/
def statusWord (b : Block) : Word :=
  flagBit (busy b) 0 ||| flagBit b.status.done 1 ||| flagBit b.status.err 2 |||
    flagBit b.status.wign 3 ||| (b.status.errCode.setWidth 32 <<< 4)

/-- A host write to STATUS (R41): writing 1 clears DONE, ERR (with ERR_CODE) or WIGN. -/
def statusW1C (v : Word) (b : Block) : Block :=
  { b with
    status :=
      { done := b.status.done && !v.getLsbD 1
        err := b.status.err && !v.getLsbD 2
        wign := b.status.wign && !v.getLsbD 3
        errCode := if v.getLsbD 2 then 0 else b.status.errCode } }

/-- What acceptance of any command does to STATUS first (R255): DONE, ERR and ERR_CODE cleared, WIGN kept. -/
def clearCommandFlags (b : Block) : Block :=
  { b with status := { b.status with done := false, err := false, errCode := 0 } }

/-- STATUS.DONE <- 1 (R39). -/
def setDone (b : Block) : Block :=
  { b with status := { b.status with done := true } }

/-- STATUS.WIGN <- 1 (R254, R279). -/
def setWign (b : Block) : Block :=
  { b with status := { b.status with wign := true } }

/-- The error codes (R271). -/
def errorCode : CmdError → BitVec 4
  | .invalidSecret => 1
  | .invalidDigits => 2
  | .invalidAlg => 3
  | .keyTooLong => 4
  | .illegalCommand => 5

/-- The report of a failed command (R256): DONE <- 1, ERR <- 1, ERR_CODE <- code. -/
def reportError (e : CmdError) (b : Block) : Block :=
  { b with status := { b.status with done := true, err := true, errCode := errorCode e } }

/-- IRQ_EN.DONE_IE, bit 0 (R42). -/
def doneIE (b : Block) : Bool :=
  b.irqEn.getLsbD 0

/-- IRQ_EN.ERR_IE, bit 1 (R42). -/
def errIE (b : Block) : Bool :=
  b.irqEn.getLsbD 1

/-- The interrupt output: a pure function of the block's state (R280). -/
def irq (b : Block) : Bool :=
  (b.status.done && doneIE b) || (b.status.err && errIE b)

end Sys2Proof.Machine
end

