-- ==== Sys2Proof/Machine/Ops.lean ====
section
/-! DEFINITION. The shared operations: the register map, register reads and stores, zeroisation, error
completion and acceptance (spec/10_state.md R30, R48; spec/44_control.md R250 to R258). -/

namespace Sys2Proof.Machine

/-! ### The register map and the access rules (R30, R90, R93) -/

/-- OTP_BASE (R8, R90). -/
def otpBase (cfg : Config) : Nat :=
  4096 * cfg.basePage

/-- Whether a bus address lies in the 4096-byte window (R90). -/
def inWindow (cfg : Config) (addr : Nat) : Bool :=
  otpBase cfg ≤ addr && addr < otpBase cfg + 4096

/-- Whether an access is a legal one: 4 bytes wide, at an offset that is a multiple of 4 (R93). -/
def accessLegal (off width : Nat) : Bool :=
  width == 4 && off % 4 == 0

/-- The offset of a register (R30). -/
def Reg.offset : Reg → Nat
  | .id => 0x000
  | .caps => 0x004
  | .ctrl => 0x008
  | .cmd => 0x00C
  | .status => 0x010
  | .irqEn => 0x014
  | .keyLen => 0x018
  | .counterHi => 0x020
  | .counterLo => 0x024
  | .truncOffset => 0x028
  | .truncValue => 0x02C
  | .code => 0x030
  | .codeBcdLo => 0x034
  | .codeBcdHi => 0x038
  | .key i => 0x040 + 4 * i.val
  | .digest i => 0x080 + 4 * i.val

/-- The rows of R30's map, the reserved offsets left out. -/
def registers : List Reg :=
  [.id, .caps, .ctrl, .cmd, .status, .irqEn, .keyLen, .counterHi, .counterLo, .truncOffset,
    .truncValue, .code, .codeBcdLo, .codeBcdHi] ++
    (List.range 16).map (fun i => .key (Fin.ofNat 16 i)) ++
    (List.range 16).map (fun i => .digest (Fin.ofNat 16 i))

/-- The register at an offset; none at the reserved offsets (R30, R48). -/
def regAt (off : Nat) : Option Reg :=
  registers.find? fun r => r.offset == off

/-- The constant of ID (R31). -/
def idWord : Word := 0x4F545048

/-- The constant of CAPS (R32). -/
def capsWord (cfg : Config) : Word :=
  0x000A4003 ||| (if cfg.hasSha512 then 0x4 else 0)

/-- The value a read of a register returns (R252). CMD and the KEY words read as zero (R37, R43). -/
def readRegister (cfg : Config) (b : Block) : Reg → Word
  | .id => idWord
  | .caps => capsWord cfg
  | .ctrl => b.ctrl
  | .cmd => 0
  | .status => statusWord b
  | .irqEn => b.irqEn
  | .keyLen => b.keyLen
  | .counterHi => b.counterHi
  | .counterLo => b.counterLo
  | .truncOffset => b.truncOffset
  | .truncValue => b.truncValue
  | .code => b.code
  | .codeBcdLo => b.codeBcdLo
  | .codeBcdHi => b.codeBcdHi
  | .key _ => 0
  | .digest i => b.digest[i]

/-- `BusRead(off)` at a legal offset (R252): a reserved offset reads as zero (R48). -/
def busRead (cfg : Config) (b : Block) (off : Nat) : Word :=
  match regAt off with
  | some r => readRegister cfg b r
  | none => 0

/-- IDLE_ONLY: the registers whose writes are ignored while BUSY (R253, R254). -/
def idleOnly : Reg → Bool
  | .ctrl | .cmd | .keyLen | .counterHi | .counterLo => true
  | .key _ | .digest _ => true
  | .id | .caps | .status | .irqEn | .truncOffset | .truncValue => false
  | .code | .codeBcdLo | .codeBcdHi => false

/-- The store a write of a register makes when it is not turned away (R253). A read-only register ignores it
(R48), and CMD stores nothing (R37): its write is acceptance (R255), which is not this function's. -/
def storeRegister (r : Reg) (v : Word) (b : Block) : Block :=
  match r with
  | .status => statusW1C v b
  | .irqEn => { b with irqEn := v &&& 0x3 }
  | .ctrl => { b with ctrl := v &&& 0x00010F03 }
  | .keyLen => { b with keyLen := v &&& 0x7F }
  | .counterHi => { b with counterHi := v }
  | .counterLo => { b with counterLo := v }
  | .key i => { b with key := b.key.set i v }
  | .digest i => { b with digest := b.digest.set i v }
  | .id | .caps | .cmd | .truncOffset | .truncValue => b
  | .code | .codeBcdLo | .codeBcdHi => b

/-- A write to a register other than CMD (R253, R254): an IDLE_ONLY register keeps its value while BUSY, and
WIGN is set. -/
def writeRegister (r : Reg) (v : Word) (b : Block) : Block :=
  if idleOnly r && busy b then setWign b else storeRegister r v b

/-! ### Zeroisation (R250, R258) -/

/-- `zeroise_key()` (R250). -/
def zeroiseKey (b : Block) : Block :=
  { b with key := zeroBuffer, keyLen := 0 }

/-- `zeroise_all()` (R250). -/
def zeroiseAll (b : Block) : Block :=
  { zeroiseKey b with
    digest := zeroBuffer
    truncOffset := 0
    truncValue := 0
    code := 0
    codeBcdLo := 0
    codeBcdHi := 0 }

/-- The end of a keyed command (R258): the key is zeroised unless KEEP_KEY is set. -/
def endKeyedCommand (b : Block) : Block :=
  if ctrlKeepKey b then b else zeroiseKey b

/-- The keyed commands (R258). -/
def keyed : Op → Bool
  | .hmac => true
  | .trunc => false
  | .hotp => true

/-! ### The checks of acceptance (R255, R271 to R277) -/

/-- INVALID_ALG (R273). -/
def algError (cfg : Config) (b : Block) : Option CmdError :=
  if algLegal cfg (ctrlAlg b) then none else some .invalidAlg

/-- INVALID_SECRET (R274). -/
def secretError (b : Block) : Option CmdError :=
  if b.keyLen.toNat = 0 then some .invalidSecret else none

/-- KEY_TOO_LONG (R276). -/
def keyLengthError (b : Block) : Option CmdError :=
  if 64 < b.keyLen.toNat then some .keyTooLong else none

/-- INVALID_DIGITS (R275). -/
def digitsError (b : Block) : Option CmdError :=
  if ctrlDigits b < 1 ∨ 10 < ctrlDigits b then some .invalidDigits else none

/-! ### The command cycle's HOST steps (R254 to R256) -/

/-- Error completion, `raise CmdError(code)` (R256): the block's one way of taking an error. The report goes to
STATUS, and a keyed command without KEEP_KEY loses its key (R258). -/
def endInError (keyedCommand : Bool) (e : CmdError) (b : Block) : Block :=
  if keyedCommand then endKeyedCommand (reportError e b) else reportError e b

/-- `PENDING <- op; BUSY <- 1`, with LAT(op, alg) CORE steps to go (R52, R255, R320). -/
def startCommand (cfg : Config) (op : Op) (b : Block) : Block :=
  { b with pending := some op, left := latency cfg op (selectedAlg b) }

/-- Acceptance of HMAC, TRUNC or HOTP (R255): the flags are cleared, then the first failing check, if any, ends
the command in its error, and otherwise the command starts. -/
def acceptCommand (cfg : Config) (op : Op) (firstError : Option CmdError) (b : Block) : Block :=
  match firstError with
  | some e => endInError (keyed op) e (clearCommandFlags b)
  | none => startCommand cfg op (clearCommandFlags b)

/-- A write to CMD (R254, R255): acceptance while idle; while BUSY the word is lost and WIGN is set. -/
def commandWrite (accept : Block → Block) (s : State) : Host.Outcome State Fault Refusal :=
  .next { s with block := if busy s.block then setWign s.block else accept s.block }

/-- Acceptance of an ILLEGAL word (R251): the key is kept whatever the word's low bits are. -/
def refuseIllegal (s : State) : Host.Outcome State Fault Refusal :=
  commandWrite (fun b => endInError false .illegalCommand (clearCommandFlags b)) s

end Sys2Proof.Machine
end

