-- ==== Sys2Proof/Machine/Sha.lean ====
section
/-! DEFINITION. The hash functions SHA-1, SHA-256 and SHA-512 (spec/42_sha.md R190 to R216). -/

namespace Sys2Proof.Machine

/-! ### Padding, parsing and the shape all three share -/

/-- Padding (R190 with `blockBytes = 64`, `lenBytes = 8`; R210 with 128 and 16): the byte 0x80, the fewest
zero bytes that leave room for the length, and the message length in bits. -/
def padMessage (blockBytes lenBytes : Nat) (m : List Byte) : List Byte :=
  m ++ [0x80] ++
    zeroBytes ((2 * blockBytes - lenBytes - 1 - m.length % blockBytes) % blockBytes) ++
    beBytes lenBytes (8 * m.length)

/-- Parsing (R191, R210): the blocks of a padded message, each as sixteen big-endian words of w bits. -/
def messageBlocks (w : Nat) (padded : List Byte) : List (List (BitVec w)) :=
  (pieces (2 * w) (padded.length / (2 * w)) padded).map fun block =>
    (pieces (w / 8) 16 block).map fun bytes => BitVec.ofNat w (be bytes)

/-- `W_{t-k}` in a schedule held newest first (R195, R203, R214). -/
def wordBack {w : Nat} (newestFirst : List (BitVec w)) (k : Nat) : BitVec w :=
  newestFirst.getD (k - 1) 0

/-- A schedule, newest first, made longer by n words, each computed from those before it. -/
def extendSchedule {w : Nat} (next : List (BitVec w) → BitVec w) :
    Nat → List (BitVec w) → List (BitVec w)
  | 0, ws => ws
  | n + 1, ws => extendSchedule next n (next ws :: ws)

/-- The message schedule W_0, W_1, … of a block: its sixteen words, then n computed ones. -/
def messageSchedule {w : Nat} (next : List (BitVec w) → BitVec w) (n : Nat)
    (block : List (BitVec w)) : List (BitVec w) :=
  (extendSchedule next n block.reverse).reverse

/-- `Ch(x, y, z)` (R192, R200, R211). -/
def ch {w : Nat} (x y z : BitVec w) : BitVec w :=
  (x &&& y) ^^^ (~~~x &&& z)

/-- `Maj(x, y, z)` (R192, R200, R211). -/
def maj {w : Nat} (x y z : BitVec w) : BitVec w :=
  (x &&& y) ^^^ (x &&& z) ^^^ (y &&& z)

/-- `Parity(x, y, z)` (R192). -/
def parity {w : Nat} (x y z : BitVec w) : BitVec w :=
  x ^^^ y ^^^ z

/-! ### SHA-1 -/

/-- The working variables, or the hash value, of SHA-1 (R194, R196). -/
structure Hash5 where
  a : BitVec 32
  b : BitVec 32
  c : BitVec 32
  d : BitVec 32
  e : BitVec 32
deriving DecidableEq, Repr

/-- The wordwise sum that ends a compression (R196). -/
def addHash5 (x y : Hash5) : Hash5 :=
  ⟨x.a + y.a, x.b + y.b, x.c + y.c, x.d + y.d, x.e + y.e⟩

/-- The SHA-1 round functions `f_t` (R192). -/
def sha1F (t : Nat) (x y z : BitVec 32) : BitVec 32 :=
  if t < 20 then ch x y z
  else if t < 40 then parity x y z
  else if t < 60 then maj x y z
  else parity x y z

/-- The SHA-1 round constants `K_t` (R193). -/
def sha1K (t : Nat) : BitVec 32 :=
  if t < 20 then 0x5A827999
  else if t < 40 then 0x6ED9EBA1
  else if t < 60 then 0x8F1BBCDC
  else 0xCA62C1D6

/-- The SHA-1 initial hash value (R194). -/
def sha1Init : Hash5 :=
  ⟨0x67452301, 0xEFCDAB89, 0x98BADCFE, 0x10325476, 0xC3D2E1F0⟩

/-- The next word of the SHA-1 message schedule (R195). -/
def sha1Next (ws : List (BitVec 32)) : BitVec 32 :=
  (wordBack ws 3 ^^^ wordBack ws 8 ^^^ wordBack ws 14 ^^^ wordBack ws 16).rotateLeft 1

/-- The SHA-1 message schedule W_0 .. W_79 of a block (R195). -/
def sha1Schedule (block : List (BitVec 32)) : List (BitVec 32) :=
  messageSchedule sha1Next 64 block

/-- One SHA-1 round (R196), on `(W_t, t)`. -/
def sha1Round (h : Hash5) (wt : BitVec 32 × Nat) : Hash5 :=
  ⟨h.a.rotateLeft 5 + sha1F wt.2 h.b h.c h.d + h.e + sha1K wt.2 + wt.1,
    h.a, h.b.rotateLeft 30, h.c, h.d⟩

/-- The SHA-1 compression of one block into a hash value (R196). -/
def sha1Compress (h : Hash5) (block : List (BitVec 32)) : Hash5 :=
  addHash5 h ((sha1Schedule block).zipIdx.foldl sha1Round h)

/-- SHA-1: 20 bytes (R190 to R197). -/
def sha1 (m : List Byte) : List Byte :=
  let h := (messageBlocks 32 (padMessage 64 8 m)).foldl sha1Compress sha1Init
  [h.a, h.b, h.c, h.d, h.e].flatMap fun x => beBytes 4 x.toNat

/-! ### SHA-256 and SHA-512: one loop over words of 32 or 64 bits (R204, R215) -/

/-- The working variables, or the hash value, of SHA-256 (w = 32) or SHA-512 (w = 64) (R204, R215). -/
structure Hash8 (w : Nat) where
  a : BitVec w
  b : BitVec w
  c : BitVec w
  d : BitVec w
  e : BitVec w
  f : BitVec w
  g : BitVec w
  h : BitVec w
deriving DecidableEq, Repr

/-- The wordwise sum that ends a compression (R204, R215). -/
def addHash8 {w : Nat} (x y : Hash8 w) : Hash8 w :=
  ⟨x.a + y.a, x.b + y.b, x.c + y.c, x.d + y.d, x.e + y.e, x.f + y.f, x.g + y.g, x.h + y.h⟩

/-- The words of a hash value, H0 first (R205, R216). -/
def hash8Words {w : Nat} (x : Hash8 w) : List (BitVec w) :=
  [x.a, x.b, x.c, x.d, x.e, x.f, x.g, x.h]

/-- One round of R204's loop, given Sigma0 and Sigma1, on `(K_t, W_t)`. -/
def sha2Round {w : Nat} (sigma0 sigma1 : BitVec w → BitVec w) (x : Hash8 w)
    (kw : BitVec w × BitVec w) : Hash8 w :=
  let t1 := x.h + sigma1 x.e + ch x.e x.f x.g + kw.1 + kw.2
  let t2 := sigma0 x.a + maj x.a x.b x.c
  ⟨t1 + t2, x.a, x.b, x.c, x.d + t1, x.e, x.f, x.g⟩

/-- SHA-256 Sigma0 (R200). -/
def sha256BigSigma0 (x : BitVec 32) : BitVec 32 :=
  x.rotateRight 2 ^^^ x.rotateRight 13 ^^^ x.rotateRight 22

/-- SHA-256 Sigma1 (R200). -/
def sha256BigSigma1 (x : BitVec 32) : BitVec 32 :=
  x.rotateRight 6 ^^^ x.rotateRight 11 ^^^ x.rotateRight 25

/-- SHA-256 sigma0 (R200). -/
def sha256SmallSigma0 (x : BitVec 32) : BitVec 32 :=
  x.rotateRight 7 ^^^ x.rotateRight 18 ^^^ (x >>> 3)

/-- SHA-256 sigma1 (R200). -/
def sha256SmallSigma1 (x : BitVec 32) : BitVec 32 :=
  x.rotateRight 17 ^^^ x.rotateRight 19 ^^^ (x >>> 10)

/-- The SHA-256 round constants K_0 .. K_63 (R201). -/
def sha256K : List (BitVec 32) :=
  [0x428A2F98, 0x71374491, 0xB5C0FBCF, 0xE9B5DBA5, 0x3956C25B, 0x59F111F1, 0x923F82A4, 0xAB1C5ED5] ++
  [0xD807AA98, 0x12835B01, 0x243185BE, 0x550C7DC3, 0x72BE5D74, 0x80DEB1FE, 0x9BDC06A7, 0xC19BF174] ++
  [0xE49B69C1, 0xEFBE4786, 0x0FC19DC6, 0x240CA1CC, 0x2DE92C6F, 0x4A7484AA, 0x5CB0A9DC, 0x76F988DA] ++
  [0x983E5152, 0xA831C66D, 0xB00327C8, 0xBF597FC7, 0xC6E00BF3, 0xD5A79147, 0x06CA6351, 0x14292967] ++
  [0x27B70A85, 0x2E1B2138, 0x4D2C6DFC, 0x53380D13, 0x650A7354, 0x766A0ABB, 0x81C2C92E, 0x92722C85] ++
  [0xA2BFE8A1, 0xA81A664B, 0xC24B8B70, 0xC76C51A3, 0xD192E819, 0xD6990624, 0xF40E3585, 0x106AA070] ++
  [0x19A4C116, 0x1E376C08, 0x2748774C, 0x34B0BCB5, 0x391C0CB3, 0x4ED8AA4A, 0x5B9CCA4F, 0x682E6FF3] ++
  [0x748F82EE, 0x78A5636F, 0x84C87814, 0x8CC70208, 0x90BEFFFA, 0xA4506CEB, 0xBEF9A3F7, 0xC67178F2]

/-- The SHA-256 initial hash value (R202). -/
def sha256Init : Hash8 32 :=
  ⟨0x6A09E667, 0xBB67AE85, 0x3C6EF372, 0xA54FF53A, 0x510E527F, 0x9B05688C, 0x1F83D9AB, 0x5BE0CD19⟩

/-- The next word of the SHA-256 message schedule (R203). -/
def sha256Next (ws : List (BitVec 32)) : BitVec 32 :=
  sha256SmallSigma1 (wordBack ws 2) + wordBack ws 7 + sha256SmallSigma0 (wordBack ws 15) +
    wordBack ws 16

/-- The SHA-256 message schedule W_0 .. W_63 of a block (R203). -/
def sha256Schedule (block : List (BitVec 32)) : List (BitVec 32) :=
  messageSchedule sha256Next 48 block

/-- The SHA-256 compression of one block into a hash value (R204). -/
def sha256Compress (h : Hash8 32) (block : List (BitVec 32)) : Hash8 32 :=
  addHash8 h ((sha256K.zip (sha256Schedule block)).foldl
    (sha2Round sha256BigSigma0 sha256BigSigma1) h)

/-- SHA-256: 32 bytes (R190, R191, R200 to R205). -/
def sha256 (m : List Byte) : List Byte :=
  (hash8Words ((messageBlocks 32 (padMessage 64 8 m)).foldl sha256Compress sha256Init)).flatMap
    fun x => beBytes 4 x.toNat

/-- SHA-512 Sigma0 (R211). -/
def sha512BigSigma0 (x : BitVec 64) : BitVec 64 :=
  x.rotateRight 28 ^^^ x.rotateRight 34 ^^^ x.rotateRight 39

/-- SHA-512 Sigma1 (R211). -/
def sha512BigSigma1 (x : BitVec 64) : BitVec 64 :=
  x.rotateRight 14 ^^^ x.rotateRight 18 ^^^ x.rotateRight 41

/-- SHA-512 sigma0 (R211). -/
def sha512SmallSigma0 (x : BitVec 64) : BitVec 64 :=
  x.rotateRight 1 ^^^ x.rotateRight 8 ^^^ (x >>> 7)

/-- SHA-512 sigma1 (R211). -/
def sha512SmallSigma1 (x : BitVec 64) : BitVec 64 :=
  x.rotateRight 19 ^^^ x.rotateRight 61 ^^^ (x >>> 6)

/-- The SHA-512 round constants K_0 .. K_79 (R212). -/
def sha512K : List (BitVec 64) :=
  [0x428A2F98D728AE22, 0x7137449123EF65CD, 0xB5C0FBCFEC4D3B2F, 0xE9B5DBA58189DBBC] ++
  [0x3956C25BF348B538, 0x59F111F1B605D019, 0x923F82A4AF194F9B, 0xAB1C5ED5DA6D8118] ++
  [0xD807AA98A3030242, 0x12835B0145706FBE, 0x243185BE4EE4B28C, 0x550C7DC3D5FFB4E2] ++
  [0x72BE5D74F27B896F, 0x80DEB1FE3B1696B1, 0x9BDC06A725C71235, 0xC19BF174CF692694] ++
  [0xE49B69C19EF14AD2, 0xEFBE4786384F25E3, 0x0FC19DC68B8CD5B5, 0x240CA1CC77AC9C65] ++
  [0x2DE92C6F592B0275, 0x4A7484AA6EA6E483, 0x5CB0A9DCBD41FBD4, 0x76F988DA831153B5] ++
  [0x983E5152EE66DFAB, 0xA831C66D2DB43210, 0xB00327C898FB213F, 0xBF597FC7BEEF0EE4] ++
  [0xC6E00BF33DA88FC2, 0xD5A79147930AA725, 0x06CA6351E003826F, 0x142929670A0E6E70] ++
  [0x27B70A8546D22FFC, 0x2E1B21385C26C926, 0x4D2C6DFC5AC42AED, 0x53380D139D95B3DF] ++
  [0x650A73548BAF63DE, 0x766A0ABB3C77B2A8, 0x81C2C92E47EDAEE6, 0x92722C851482353B] ++
  [0xA2BFE8A14CF10364, 0xA81A664BBC423001, 0xC24B8B70D0F89791, 0xC76C51A30654BE30] ++
  [0xD192E819D6EF5218, 0xD69906245565A910, 0xF40E35855771202A, 0x106AA07032BBD1B8] ++
  [0x19A4C116B8D2D0C8, 0x1E376C085141AB53, 0x2748774CDF8EEB99, 0x34B0BCB5E19B48A8] ++
  [0x391C0CB3C5C95A63, 0x4ED8AA4AE3418ACB, 0x5B9CCA4F7763E373, 0x682E6FF3D6B2B8A3] ++
  [0x748F82EE5DEFB2FC, 0x78A5636F43172F60, 0x84C87814A1F0AB72, 0x8CC702081A6439EC] ++
  [0x90BEFFFA23631E28, 0xA4506CEBDE82BDE9, 0xBEF9A3F7B2C67915, 0xC67178F2E372532B] ++
  [0xCA273ECEEA26619C, 0xD186B8C721C0C207, 0xEADA7DD6CDE0EB1E, 0xF57D4F7FEE6ED178] ++
  [0x06F067AA72176FBA, 0x0A637DC5A2C898A6, 0x113F9804BEF90DAE, 0x1B710B35131C471B] ++
  [0x28DB77F523047D84, 0x32CAAB7B40C72493, 0x3C9EBE0A15C9BEBC, 0x431D67C49C100D4C] ++
  [0x4CC5D4BECB3E42B6, 0x597F299CFC657E2A, 0x5FCB6FAB3AD6FAEC, 0x6C44198C4A475817]

/-- The SHA-512 initial hash value (R213). -/
def sha512Init : Hash8 64 :=
  ⟨0x6A09E667F3BCC908, 0xBB67AE8584CAA73B, 0x3C6EF372FE94F82B, 0xA54FF53A5F1D36F1,
    0x510E527FADE682D1, 0x9B05688C2B3E6C1F, 0x1F83D9ABFB41BD6B, 0x5BE0CD19137E2179⟩

/-- The next word of the SHA-512 message schedule (R214). -/
def sha512Next (ws : List (BitVec 64)) : BitVec 64 :=
  sha512SmallSigma1 (wordBack ws 2) + wordBack ws 7 + sha512SmallSigma0 (wordBack ws 15) +
    wordBack ws 16

/-- The SHA-512 message schedule W_0 .. W_79 of a block (R214). -/
def sha512Schedule (block : List (BitVec 64)) : List (BitVec 64) :=
  messageSchedule sha512Next 64 block

/-- The SHA-512 compression of one block into a hash value (R215). -/
def sha512Compress (h : Hash8 64) (block : List (BitVec 64)) : Hash8 64 :=
  addHash8 h ((sha512K.zip (sha512Schedule block)).foldl
    (sha2Round sha512BigSigma0 sha512BigSigma1) h)

/-- SHA-512: 64 bytes (R210 to R216). -/
def sha512 (m : List Byte) : List Byte :=
  (hash8Words ((messageBlocks 64 (padMessage 128 16 m)).foldl sha512Compress sha512Init)).flatMap
    fun x => beBytes 8 x.toNat

end Sys2Proof.Machine
end

