-- ==== Sys2Proof/Machine/Hmac.lean ====
section
/-! DEFINITION. HMAC and the HMAC command (spec/41_hmac.md R170 to R177). -/

namespace Sys2Proof.Machine

/-- The hash H of an algorithm (R170). -/
def hash : Alg → List Byte → List Byte
  | .sha1 => sha1
  | .sha256 => sha256
  | .sha512 => sha512

/-- The key block K0 (R171). -/
def keyBlock (alg : Alg) (k : List Byte) : List Byte :=
  k ++ zeroBytes (blockLength alg - k.length)

/-- K0 with the byte `pad` added to each of its bytes by exclusive OR (R172). -/
def paddedKey (alg : Alg) (pad : Byte) (k : List Byte) : List Byte :=
  xorBytes (keyBlock alg k) (List.replicate (blockLength alg) pad)

/-- `HMAC_H(K, M)` (R172). -/
def hmac (alg : Alg) (k m : List Byte) : List Byte :=
  hash alg (paddedKey alg 0x5C k ++ hash alg (paddedKey alg 0x36 k ++ m))

/-- `write_digest(D)` (R174). -/
def writeDigest (d : List Byte) (b : Block) : Block :=
  { b with digest := bufferOfBytes (d ++ zeroBytes (64 - d.length)) }

/-- The HMAC of the counter under the key (R173). -/
def hmacOfOperands (b : Block) : List Byte :=
  hmac (selectedAlg b) (keyOperand b) (messageOperand b)

/-- The checks of HMAC, first failure first (R173, R255, R277). -/
def hmacChecks (cfg : Config) (b : Block) : Option CmdError :=
  algError cfg b <|> secretError b <|> keyLengthError b

/-- HMAC (R173): its CMD write. -/
def execHmac (s : State) : Host.Outcome State Fault Refusal :=
  commandWrite (fun b => acceptCommand s.cfg .hmac (hmacChecks s.cfg b) b) s

/-- `complete(HMAC)` (R173). -/
def completeHmac (b : Block) : Block :=
  endKeyedCommand (writeDigest (hmacOfOperands b) b)

end Sys2Proof.Machine
end

