-- ==== Sys2Proof/Machine/Trunc.lean ====
section
/-! DEFINITION. Dynamic truncation and the TRUNC command (spec/40_truncation.md R150 to R156). -/

namespace Sys2Proof.Machine

/-- The offset: the low four bits of the digest's last byte (R150). -/
def dtOffset (d : List Byte) : Nat :=
  (d.getD (d.length - 1) 0 &&& 0x0F).toNat

/-- The value: four bytes from the offset, big-endian, bit 31 cleared (R151). -/
def dtValue (d : List Byte) : Nat :=
  be (window d (dtOffset d) 4) &&& 0x7FFFFFFF

/-- The code: `value mod 10^d` (R152). -/
def dtCode (d : List Byte) (digits : Nat) : Nat :=
  dtValue d % 10 ^ digits

/-- `dig(k)`: the coefficient of 10^k of a code (R47). -/
def bcdDigit (c k : Nat) : Nat :=
  c / 10 ^ k % 10

/-- CODE_BCD_LO of a code: digits 0 to 7 (R47). -/
def bcdLo (c : Nat) : Nat :=
  ((List.range 8).map fun k => bcdDigit c k <<< (4 * k)).sum

/-- CODE_BCD_HI of a code: digits 8 and 9 (R47). -/
def bcdHi (c : Nat) : Nat :=
  bcdDigit c 8 ||| bcdDigit c 9 <<< 4

/-- The result registers of a truncation of D to d digits (R154, R240). -/
def writeTruncation (d : List Byte) (digits : Nat) (b : Block) : Block :=
  { b with
    truncOffset := BitVec.ofNat 32 (dtOffset d)
    truncValue := BitVec.ofNat 32 (dtValue d)
    code := BitVec.ofNat 32 (dtCode d digits)
    codeBcdLo := BitVec.ofNat 32 (bcdLo (dtCode d digits))
    codeBcdHi := BitVec.ofNat 32 (bcdHi (dtCode d digits)) }

/-- The checks of TRUNC, first failure first (R154, R255, R277). -/
def truncChecks (cfg : Config) (b : Block) : Option CmdError :=
  algError cfg b <|> digitsError b

/-- TRUNC (R154): its CMD write. -/
def execTrunc (s : State) : Host.Outcome State Fault Refusal :=
  commandWrite (fun b => acceptCommand s.cfg .trunc (truncChecks s.cfg b) b) s

/-- `complete(TRUNC)` (R154). -/
def completeTrunc (b : Block) : Block :=
  writeTruncation (digestOperand b) (ctrlDigits b) b

end Sys2Proof.Machine
end

