-- ==== Sys2Proof/Machine/Hotp.lean ====
section
/-! DEFINITION. The HOTP command (spec/43_hotp.md R240 to R243). -/

namespace Sys2Proof.Machine

/-- The checks of HOTP, first failure first (R240, R255, R277). -/
def hotpChecks (cfg : Config) (b : Block) : Option CmdError :=
  algError cfg b <|> secretError b <|> keyLengthError b <|> digitsError b

/-- HOTP (R240): its CMD write. -/
def execHotp (s : State) : Host.Outcome State Fault Refusal :=
  commandWrite (fun b => acceptCommand s.cfg .hotp (hotpChecks s.cfg b) b) s

/-- `complete(HOTP)` (R240): the truncation is of the digest just computed, not of the register. -/
def completeHotp (b : Block) : Block :=
  endKeyedCommand
    (writeTruncation (hmacOfOperands b) (ctrlDigits b) (writeDigest (hmacOfOperands b) b))

end Sys2Proof.Machine
end

