-- ==== Sys2Proof/Machine/Cycle.lean ====
section
/-! DEFINITION. The CORE agent: internal steps and the completion step (spec/44_control.md R257;
spec/70_reset_and_hazards.md R320). -/

namespace Sys2Proof.Machine

/-- The results of a command (R257). -/
def completeResults : Op → Block → Block
  | .hmac => completeHmac
  | .trunc => completeTrunc
  | .hotp => completeHotp

/-- `complete()` (R257): every result, then PENDING <- NONE, BUSY <- 0 and DONE <- 1, in one step. -/
def complete (op : Op) (b : Block) : Block :=
  setDone { completeResults op b with pending := none, left := 0 }

/-- One CORE step (R257, R320): an internal step counts down, the last one completes; with PENDING = NONE the
CORE has no step. This is R320's counting form (notes/assumptions/9.md, DESIGN CHOICE). The working values of R53
exist only inside the last step (notes/assumptions/11.md, DEDUCED). -/
def coreStep (b : Block) : Block :=
  match b.pending with
  | none => b
  | some op => if b.left ≤ 1 then complete op b else { b with left := b.left - 1 }

/-- CORE steps in a row. -/
def coreSteps : Nat → Block → Block
  | 0, b => b
  | n + 1, b => coreSteps n (coreStep b)

end Sys2Proof.Machine
end

