-- ==== Sys2Proof/Machine/Zeroize.lean ====
section
/-! DEFINITION. The ZEROIZE command (spec/44_control.md R250). -/

namespace Sys2Proof.Machine

/-- ZEROIZE (R250): its whole effect happens at acceptance; it is never BUSY. -/
def execZeroize (s : State) : Host.Outcome State Fault Refusal :=
  commandWrite (fun b => setDone (zeroiseAll (clearCommandFlags b))) s

end Sys2Proof.Machine
end

