-- ==== Sys2Proof/Machine/Bus.lean ====
section
/-! DEFINITION. Host accesses, and the turn of each agent (spec/20_memory.md R90 to R99; spec/44_control.md
R252 to R255; spec/70_reset_and_hazards.md R300). -/

namespace Sys2Proof.Machine

/-- A write of the word w to CMD (R255): the command it decodes to, or the refusal of an ILLEGAL word. -/
def writeCmd (w : Word) (s : State) : Host.Outcome State Fault Refusal :=
  match decode w with
  | .ok i => exec i s
  | .error _ => refuseIllegal s

/-- `BusWrite(off, v)` at a legal offset (R253). -/
def busWrite (off : Nat) (v : Word) (s : State) : Host.Outcome State Fault Refusal :=
  match regAt off with
  | none => .next s
  | some .cmd => writeCmd v s
  | some r => .next { s with block := writeRegister r v s.block }

/-- A HOST step (R13, R15): an access outside the window never reaches the block (R91; the address alone decides,
notes/assumptions/7.md, DEDUCED); one of illegal width or alignment is a bus error (R94; notes/assumptions/8.md,
DEDUCED); a legal one is `BusRead` or `BusWrite`. -/
def hostStep (a : Access) (s : State) : Host.Outcome State Fault Refusal :=
  match a with
  | .read addr width =>
    if !inWindow s.cfg addr then .next { s with reply := .notForBlock }
    else if !accessLegal (addr - otpBase s.cfg) width then
      .fault (.busError (addr - otpBase s.cfg) width)
    else .next { s with reply := .data (busRead s.cfg s.block (addr - otpBase s.cfg)) }
  | .write addr width v =>
    if !inWindow s.cfg addr then .next { s with reply := .notForBlock }
    else if !accessLegal (addr - otpBase s.cfg) width then
      .fault (.busError (addr - otpBase s.cfg) width)
    else busWrite (addr - otpBase s.cfg) v { s with reply := .written }

/-- A RESET step (R300, R301): the whole block, whatever was pending (R302). -/
def resetStep (s : State) : State :=
  { s with block := Block.reset, reply := .none }

/-- The turn of one agent (R15). -/
def agentStep (e : Event) (s : State) : Host.Outcome State Fault Refusal :=
  match e with
  | .host a => hostStep a s
  | .core => .next { s with block := coreStep s.block }
  | .reset => .next (resetStep s)

/-- The host's access that hands the block a command word of `nbits` bits. Bits above `nbits` are zero, so a
shorter word is still a write of one 32-bit word (R125); a longer one is a wider access, which R94 refuses
(notes/assumptions/10.md, DEDUCED). -/
def commandAccess (cfg : Config) (nbits w : Nat) : Access :=
  .write (otpBase cfg + Reg.offset .cmd) (if nbits ≤ 32 then 4 else (nbits + 7) / 8)
    (BitVec.ofNat 32 (w % 2 ^ nbits))

end Sys2Proof.Machine
end

