-- ==== Sys2Proof/Machine/Step.lean ====
section
/-! DEFINITION. One step of the machine, and how a command word is handed to it (spec/00_scope.md R15). -/

namespace Sys2Proof.Machine

/-- One step: the next agent's turn. When no turn is waiting, the CORE moves, so that a pending command is
completed (weak fairness, R320; notes/assumptions/2.md, DESIGN CHOICE); with PENDING = NONE that changes nothing
(R257, R291). -/
def step (s : State) : Host.Outcome State Fault Refusal :=
  match s.inbox with
  | [] => agentStep .core s
  | e :: rest => agentStep e { s with inbox := rest }

/-- s with the host's write of a command word to CMD as its next turn: the block fetches nothing, so this is
where a command comes from (R7, R51, R103; notes/assumptions/4.md). -/
def State.withFetchWord (s : State) (nbits w : Nat) : State :=
  { s with inbox := .host (commandAccess s.cfg nbits w) :: s.inbox }

end Sys2Proof.Machine
end

