-- ==== Sys2Proof/Machine/HostProgram.lean ====
section
/-! DEFINITION. Host programs: their lines, the expansions of the pseudo-instructions, and the run of one against
the block (spec/30_encoding.md R128 to R130; spec/70_reset_and_hazards.md R323). The block does not see this
layer: each of its turns is one turn of `step`. -/

namespace Sys2Proof.Machine

/-- A label of a host program: one the program names, or one that an expansion makes (R128, R129). -/
inductive Label where
  | named (name : String)
  | fresh (n : Nat)
deriving DecidableEq, Repr

/-- An expression of a host statement (R128). The spec gives no grammar of them: these are the operators of
R11 that its programs use (notes/assumptions/6.md, DESIGN CHOICE, safe). -/
inductive Expr where
  | num (n : Nat)
  | var (x : String)
  | add (a b : Expr)
  | sub (a b : Expr)
  | mul (a b : Expr)
  | div (a b : Expr)
  | mod (a b : Expr)
deriving DecidableEq, Repr

/-- A condition of a host statement (R128): comparisons, and `e[i] = 1` (R129). -/
inductive Cond where
  | eq (a b : Expr)
  | ne (a b : Expr)
  | le (a b : Expr)
  | bit (e : Expr) (i : Nat)
deriving DecidableEq, Repr

/-- A line of a host program that is no pseudo-instruction (R128). -/
inductive HostLine where
  | label (l : Label)
  | wr (r : Reg) (v : Expr)
  | rd (r : Reg) (x : String)
  | assign (x : String) (e : Expr)
  | ifGoto (c : Cond) (l : Label)
  | goto (l : Label)
  | halt
deriving DecidableEq, Repr

/-- The pseudo-instructions (R129). -/
inductive Pseudo where
  | hmac
  | trunc
  | hotp
  | zeroize
  | setctrl (alg digits keep : Expr)
  | ldkey (s : List Byte)
  | ldctr (c : Expr)
  | lddig (s : List Byte)
  | wait
  | clrst
deriving DecidableEq, Repr

/-- A line of a host program as it is written (R128). -/
inductive SourceLine where
  | plain (l : HostLine)
  | pseudo (p : Pseudo)
deriving DecidableEq, Repr

/-- The ranges R129 gives the operands of a pseudo-instruction, where they are numbers. The expansion does not ask
for them (notes/assumptions/6.md, DESIGN CHOICE). -/
def pseudoWellFormed : Pseudo → Bool
  | .hmac | .trunc | .hotp | .zeroize | .wait | .clrst => true
  | .setctrl _ _ _ => true
  | .ldkey s => s.length ≤ 64
  | .ldctr (.num c) => c < 2 ^ 64
  | .ldctr _ => true
  | .lddig s => s.length ≤ 64

/-- The words of a byte string followed by zero bytes to a multiple of 4 (R129). -/
def stringWords (s : List Byte) : List Nat :=
  (pieces 4 ((s.length + 3) / 4) (s ++ zeroBytes ((4 - s.length % 4) % 4))).map be

/-- `WR CMD, w` for a command (R129). -/
def commandLine (i : Instr) : List HostLine :=
  [.wr .cmd (.num (encode i).toNat)]

/-- The expansion of a pseudo-instruction (R129); `n` numbers the label WAIT makes. R129 gives no expansion of one
whose operand `pseudoWellFormed` refuses. The model expands it all the same: of LDKEY or LDDIG of more than 64 bytes
the words from the seventeenth on go to the registers from KEY0 or DIGEST0 on again, and of LDCTR of 2^64 or more
COUNTER_HI gets the quotient modulo 2^32 (notes/assumptions/6.md, DESIGN CHOICE). -/
def expandPseudo (n : Nat) : Pseudo → List HostLine
  | .hmac => commandLine .hmac
  | .trunc => commandLine .trunc
  | .hotp => commandLine .hotp
  | .zeroize => commandLine .zeroize
  | .setctrl a d k =>
    [.wr .ctrl (.add (.add a (.mul d (.num 0x100))) (.mul k (.num 0x10000)))]
  | .ldkey s =>
    .wr .keyLen (.num s.length) ::
      (stringWords s).zipIdx.map fun wi => .wr (.key (Fin.ofNat 16 wi.2)) (.num wi.1)
  | .ldctr c =>
    [.wr .counterHi (.div c (.num (2 ^ 32))), .wr .counterLo (.mod c (.num (2 ^ 32)))]
  | .lddig s =>
    (stringWords s).zipIdx.map fun wi => .wr (.digest (Fin.ofNat 16 wi.2)) (.num wi.1)
  | .wait =>
    [.label (.fresh n), .rd .status "s", .ifGoto (.bit (.var "s") 0) (.fresh n)]
  | .clrst => [.wr .status (.num 0x0000000E)]

/-- A program with every pseudo-instruction expanded (R129). -/
def expandProgram (p : List SourceLine) : List HostLine :=
  p.zipIdx.flatMap fun ln =>
    match ln.1 with
    | .plain l => [l]
    | .pseudo q => expandPseudo ln.2 q

/-- How a run stands (R323). -/
inductive RunStatus where
  /-- The run has not ended. -/
  | running
  /-- The host executed `halt` with PENDING = NONE and no bus error had occurred. -/
  | finished
  /-- A bus error has occurred (R278): the run has no end state. -/
  | faulted
deriving DecidableEq, Repr

/-- A bus transaction of a program's encoding (R129): `(W, off, value)` or `(R, off)`. -/
inductive Transaction where
  | write (off : Nat) (value : Word)
  | read (off : Nat)
deriving DecidableEq, Repr

/-- A host program's run: the program, the host's place in it and its variables, the machine, how the run stands,
and the bus transactions its lines have made so far, first one first. -/
structure HostRun where
  program : List HostLine
  place : Nat
  vars : List (String × Nat)
  machine : State
  status : RunStatus
  made : List Transaction
deriving DecidableEq, Repr

/-- Whose turn it is in a run: the program's next line, or another agent's turn (R15, R324). -/
inductive Turn where
  | line
  | agent (e : Event)
deriving DecidableEq, Repr

/-- A host variable; one that was never assigned reads as 0 (notes/assumptions/6.md, DESIGN CHOICE). -/
def lookupVar (vars : List (String × Nat)) (x : String) : Nat :=
  (vars.lookup x).getD 0

/-- The value of an expression (R9, R11). The spec says nothing of a division by 0 or of a difference below 0: here
`a / 0` is 0, `a mod 0` is a, and a difference stops at 0 (notes/assumptions/6.md, DESIGN CHOICE). -/
def evalExpr (vars : List (String × Nat)) : Expr → Nat
  | .num n => n
  | .var x => lookupVar vars x
  | .add a b => evalExpr vars a + evalExpr vars b
  | .sub a b => evalExpr vars a - evalExpr vars b
  | .mul a b => evalExpr vars a * evalExpr vars b
  | .div a b => evalExpr vars a / evalExpr vars b
  | .mod a b => evalExpr vars a % evalExpr vars b

/-- Whether a condition holds. -/
def evalCond (vars : List (String × Nat)) : Cond → Bool
  | .eq a b => evalExpr vars a == evalExpr vars b
  | .ne a b => evalExpr vars a != evalExpr vars b
  | .le a b => evalExpr vars a ≤ evalExpr vars b
  | .bit e i => (evalExpr vars e).testBit i

/-- The bus transaction a line makes, if it makes one (R128, R129). -/
def lineTransaction (vars : List (String × Nat)) : HostLine → Option Transaction
  | .wr r v => some (.write r.offset (BitVec.ofNat 32 (evalExpr vars v)))
  | .rd r _ => some (.read r.offset)
  | .label _ | .assign _ _ | .ifGoto _ _ | .goto _ | .halt => none

/-- One turn of an agent against the block, in a run. A bus error marks the run faulted and changes no state of
the block (R94, R278). -/
def agentTurn (e : Event) (r : HostRun) : HostRun :=
  match step { r.machine with inbox := [e] } with
  | .next m => { r with machine := m }
  | .fault _ => { r with status := .faulted }
  | .refused _ => r

/-- The host goes on to the next line. -/
def nextLine (r : HostRun) : HostRun :=
  { r with place := r.place + 1 }

/-- The host goes on at a label (R128): at the first line that carries it, where several do, and past the last line
where none does (notes/assumptions/6.md, DESIGN CHOICE). -/
def jumpTo (l : Label) (r : HostRun) : HostRun :=
  { r with place := r.program.findIdx (fun x => x == .label l) }

/-- The word of the last answer, if it was a read's. -/
def replyWord (s : State) : Nat :=
  match s.reply with
  | .data v => v.toNat
  | .none | .written | .notForBlock => 0

/-- The host's access to a register (R128: `BusWrite(off(reg), v)`, `BusRead(off(reg))`). -/
def registerAddress (r : HostRun) (reg : Reg) : Nat :=
  otpBase r.machine.cfg + reg.offset

/-- `halt` (R323): the run ends when PENDING = NONE; otherwise the completion comes first. -/
def haltLine (r : HostRun) : HostRun :=
  if busy r.machine.block then agentTurn .core r
  else if r.status = .running then { r with status := .finished }
  else r

/-- What the host does on a line (R128). -/
def executeLine (l : HostLine) (r : HostRun) : HostRun :=
  match l with
  | .label _ => nextLine r
  | .wr reg v =>
    nextLine (agentTurn
      (.host (.write (registerAddress r reg) 4 (BitVec.ofNat 32 (evalExpr r.vars v)))) r)
  | .rd reg x =>
    let r' := agentTurn (.host (.read (registerAddress r reg) 4)) r
    nextLine { r' with vars := (x, replyWord r'.machine) :: r'.vars }
  | .assign x e => nextLine { r with vars := (x, evalExpr r.vars e) :: r.vars }
  | .ifGoto c l => if evalCond r.vars c then jumpTo l r else nextLine r
  | .goto l => jumpTo l r
  | .halt => haltLine r

/-- The transaction a line makes joins those the run has made, with the values its variables have then (R129). -/
def recordLine (l : HostLine) (r : HostRun) : HostRun :=
  { r with made := r.made ++ (lineTransaction r.vars l).toList }

/-- The host executes the line at its place (R128), and its transaction is recorded (R129). -/
def lineTurn (r : HostRun) : HostRun :=
  match r.program[r.place]? with
  | none => r
  | some l => executeLine l (recordLine l r)

/-- One turn of a run; a finished run has no more turns (R323). -/
def runTurn (t : Turn) (r : HostRun) : HostRun :=
  if r.status = .finished then r
  else
    match t with
    | .line => lineTurn r
    | .agent e => agentTurn e r

/-- Turns in a row. -/
def runTurns : List Turn → HostRun → HostRun
  | [], r => r
  | t :: ts, r => runTurns ts (runTurn t r)

/-- A run of a program from the reset state of a build (R300). -/
def startRun (cfg : Config) (p : List SourceLine) : HostRun where
  program := expandProgram p
  place := 0
  vars := []
  machine := State.resetOf cfg
  status := .running
  made := []

/-- A program's encoding in the run that these turns give (R129): the bus transactions its expansion makes, in their
order. Values and reads depend on variables and on what the block answers, and a loop makes its transactions at each
pass, so the encoding is that of a run. -/
def programEncoding (cfg : Config) (p : List SourceLine) (ts : List Turn) : List Transaction :=
  (runTurns ts (startRun cfg p)).made

end Sys2Proof.Machine
end

