-- ==== Sys2Proof/Safety.lean ====
section
/-! DEFINITION. The terms of the claims: the invariant of the reachable states, the host's duties, what the host
can observe, and what two runs share (spec/10_state.md R54; spec/70_reset_and_hazards.md R322 to R324). -/

namespace Sys2Proof.Machine

/-- The commands that truncate, and so check DIGITS (R255). -/
def truncates : Op → Bool
  | .hmac => false
  | .trunc => true
  | .hotp => true

/-- The command of a value of PENDING (R52). -/
def commandOf : Op → Instr
  | .hmac => .hmac
  | .trunc => .trunc
  | .hotp => .hotp

/-- The checks of acceptance that a command must pass, in R255's terms: a legal ALG, a key of 1 to 64 bytes for
a keyed command, and 1 to 10 digits for a truncating one. -/
structure Passes (cfg : Config) (op : Op) (b : Block) : Prop where
  alg : algLegal cfg (ctrlAlg b) = true
  key : keyed op = true → 1 ≤ b.keyLen.toNat ∧ b.keyLen.toNat ≤ 64
  digits : truncates op = true → 1 ≤ ctrlDigits b ∧ ctrlDigits b ≤ 10

/-- The STATUS fields at the end of a command that did not fail: DONE = 1, ERR = 0, ERR_CODE = 0, and WIGN as it
was (R255, R257). -/
def doneStatus (b : Block) : Status where
  done := true
  err := false
  wign := b.status.wign
  errCode := 0

/-- The STATUS fields while an accepted command runs: DONE, ERR and ERR_CODE cleared, WIGN as it was (R255). -/
def runningStatus (b : Block) : Status where
  done := false
  err := false
  wign := b.status.wign
  errCode := 0

/-- What holds of the block in every reachable state (R54, R36, R42, R44, R47, R52, R255, R271). -/
structure Block.Inv (cfg : Config) (b : Block) : Prop where
  /-- CTRL's reserved bits read as zero (R36). -/
  ctrlReserved : b.ctrl &&& 0x00010F03 = b.ctrl
  /-- IRQ_EN's reserved bits read as zero (R42). -/
  irqEnReserved : b.irqEn &&& 0x3 = b.irqEn
  /-- KEY_LEN's reserved bits read as zero (R44). -/
  keyLenReserved : b.keyLen &&& 0x7F = b.keyLen
  /-- BUSY = 1 implies DONE = 0 and ERR = 0 (R54). -/
  busyFlags : busy b = true → b.status.done = false ∧ b.status.err = false
  /-- ERR = 0 implies ERR_CODE = 0 (R54). -/
  noErrorCode : b.status.err = false → b.status.errCode = 0
  /-- ERR = 1 comes with one of the codes 1 to 5 (R271). -/
  errorCodeNamed : b.status.err = true → 1 ≤ b.status.errCode.toNat ∧ b.status.errCode.toNat ≤ 5
  /-- TRUNC_OFFSET <= 15 (R54). -/
  offsetBound : b.truncOffset.toNat ≤ 15
  /-- TRUNC_VALUE < 2^31 (R54). -/
  valueBound : b.truncValue.toNat < 2 ^ 31
  /-- CODE <= TRUNC_VALUE (R54). -/
  codeBound : b.code.toNat ≤ b.truncValue.toNat
  /-- CODE_BCD_LO and CODE_BCD_HI hold the digits of CODE (R47). -/
  bcdLoDigits : b.codeBcdLo.toNat = bcdLo b.code.toNat
  bcdHiDigits : b.codeBcdHi.toNat = bcdHi b.code.toNat
  /-- With PENDING = NONE no CORE step is left (R301). -/
  idleLeft : b.pending = none → b.left = 0
  /-- A pending command has 1 to LAT(op, alg) CORE steps left (R52, R320). -/
  busyLeft : ∀ op, b.pending = some op → 1 ≤ b.left ∧ b.left ≤ latency cfg op (selectedAlg b)
  /-- A pending command's operands passed the checks of acceptance (R255), and cannot change (R254). -/
  busyAlg : ∀ op, b.pending = some op → algLegal cfg (ctrlAlg b) = true
  busyKey : ∀ op, b.pending = some op → keyed op = true → 1 ≤ b.keyLen.toNat ∧ b.keyLen.toNat ≤ 64
  busyDigits : ∀ op, b.pending = some op → truncates op = true → 1 ≤ ctrlDigits b ∧ ctrlDigits b ≤ 10

/-- The invariant of a machine state. -/
def State.Inv (s : State) : Prop :=
  s.block.Inv s.cfg

/-- What a host can see of the block without changing it: the word at every offset, and `irq` (R96, R280). -/
def sameView (cfg : Config) (a b : Block) : Prop :=
  (∀ off, busRead cfg a off = busRead cfg b off) ∧ irq a = irq b

/-- The host's duties for one access (R324): an access to the window is 32 bits wide and aligned (R93), and
a write to an IDLE_ONLY register comes only while BUSY = 0 (R310, R317). -/
def dutiful (s : State) : Event → Prop
  | .host (.read addr width) =>
    inWindow s.cfg addr = true → accessLegal (addr - otpBase s.cfg) width = true
  | .host (.write addr width _) =>
    inWindow s.cfg addr = true →
      accessLegal (addr - otpBase s.cfg) width = true ∧
        ∀ r, regAt (addr - otpBase s.cfg) = some r → idleOnly r = true → busy s.block = false
  | .core => True
  | .reset => True

/-- The registers whose values the timing may not depend on: the key, the counter and the digest (R322). -/
def dataRegister : Reg → Bool
  | .key _ | .digest _ | .counterHi | .counterLo => true
  | .id | .caps | .ctrl | .cmd | .status | .irqEn | .keyLen => false
  | .truncOffset | .truncValue | .code | .codeBcdLo | .codeBcdHi => false

/-- Two turns that are the same but for the value written to a data register. -/
inductive SameTurn (cfg : Config) : Event → Event → Prop where
  | same (e : Event) : SameTurn cfg e e
  | dataWrite (addr width : Nat) (v v' : Word) (r : Reg)
      (window : inWindow cfg addr = true) (reg : regAt (addr - otpBase cfg) = some r)
      (data : dataRegister r = true) :
      SameTurn cfg (.host (.write addr width v)) (.host (.write addr width v'))

/-- Two machines that differ at most in the key words, the counter, the digest and the results: all that the
length of a command, STATUS and `irq` may depend on is the same (R322). -/
structure SameControl (s t : State) : Prop where
  cfg : s.cfg = t.cfg
  ctrl : s.block.ctrl = t.block.ctrl
  status : s.block.status = t.block.status
  irqEn : s.block.irqEn = t.block.irqEn
  keyLen : s.block.keyLen = t.block.keyLen
  pending : s.block.pending = t.block.pending
  left : s.block.left = t.block.left
  inbox : List.Forall₂ (SameTurn s.cfg) s.inbox t.inbox

/-- A run of a host program that ended as R323 says, and its end state: the registers at that point. -/
def finishedRun (r : HostRun) : Prop :=
  r.status = .finished ∧ r.machine.block.pending = none

end Sys2Proof.Machine
end

