-- ==== Sys2Proof/Certificates/Slice0/Obligations.lean ====
section
/-! DEFINITION. The statements about the block, from the numbered rules of spec/. -/

open Sys2Proof Sys2Proof.Machine

/-! ### Reset -/

/-- R301: a RESET step, from any state, leaves every register, PENDING and `irq` at the value of R301's table. -/
def Obligations.ResetLeavesTheResetState : Prop :=
  ∀ (s : State) (rest : List Event), s.inbox = .reset :: rest →
    ∃ t, step s = .next t ∧ t.cfg = s.cfg ∧ t.inbox = rest ∧
      busRead t.cfg t.block 0x000 = 0x4F545048 ∧
      busRead t.cfg t.block 0x004 = (if s.cfg.hasSha512 then 0x000A4007 else 0x000A4003) ∧
      t.block.ctrl = 0x00000600 ∧ statusWord t.block = 0 ∧ t.block.irqEn = 0 ∧
      t.block.keyLen = 0 ∧ (∀ i : Fin 16, t.block.key[i] = 0) ∧
      t.block.counterHi = 0 ∧ t.block.counterLo = 0 ∧
      t.block.truncOffset = 0 ∧ t.block.truncValue = 0 ∧
      t.block.code = 0 ∧ t.block.codeBcdLo = 0 ∧ t.block.codeBcdHi = 0 ∧
      (∀ i : Fin 16, t.block.digest[i] = 0) ∧
      t.block.pending = none ∧ t.block.left = 0 ∧ irq t.block = false

/-- The reset state of every build meets the invariant (R54, R301). -/
def Obligations.ResetMeetsInvariant : Prop :=
  ∀ cfg : Config, (State.resetOf cfg).Inv

/-- Every step that answers a next state keeps the invariant of R54 and of the reserved bits. -/
def Obligations.EveryStepKeepsInvariant : Prop :=
  ∀ s t : State, s.Inv → step s = .next t → t.Inv

/-! ### Command words -/

/-- R122: the sixteen words whose bits 31:4 are zero decode as the opcode map says. -/
def Obligations.OpcodeMapDecodes : Prop :=
  decode 0x00000001 = .ok .hmac ∧ decode 0x00000002 = .ok .trunc ∧
  decode 0x00000003 = .ok .hotp ∧ decode 0x00000004 = .ok .zeroize ∧
  decode 0x00000000 = .error .reservedOpcode ∧
  ∀ n : Fin 16, 5 ≤ n.val → decode (BitVec.ofNat 32 n.val) = .error .reservedOpcode

/-- R121, R123: a word decodes to a command exactly when it is that command's word, and is illegal exactly when
its bits 31:4 are not zero or its low four bits are 0 or 5 to 15. -/
def Obligations.DecodeAndEncodeAgree : Prop :=
  (∀ (w : Word) (i : Instr), decode w = .ok i ↔ encode i = w) ∧
  (∀ w : Word, (∃ e, decode w = .error e) ↔
    w.toNat / 16 ≠ 0 ∨ w.toNat % 16 = 0 ∨ 5 ≤ w.toNat % 16)

/-- R30, R48: each register is at the offset R30's table gives it, and an offset of the window that is a multiple
of 4 has no register exactly when it is 0x01C, 0x03C or from 0x0C0 on. -/
def Obligations.RegistersAreAtTheirOffsets : Prop :=
  regAt 0x000 = some .id ∧ regAt 0x004 = some .caps ∧ regAt 0x008 = some .ctrl ∧
  regAt 0x00C = some .cmd ∧ regAt 0x010 = some .status ∧ regAt 0x014 = some .irqEn ∧
  regAt 0x018 = some .keyLen ∧ regAt 0x020 = some .counterHi ∧ regAt 0x024 = some .counterLo ∧
  regAt 0x028 = some .truncOffset ∧ regAt 0x02C = some .truncValue ∧ regAt 0x030 = some .code ∧
  regAt 0x034 = some .codeBcdLo ∧ regAt 0x038 = some .codeBcdHi ∧
  (∀ i : Fin 16, regAt (0x040 + 4 * i.val) = some (.key i)) ∧
  (∀ i : Fin 16, regAt (0x080 + 4 * i.val) = some (.digest i)) ∧
  (∀ off, off < 4096 → off % 4 = 0 →
    (regAt off = none ↔ off = 0x01C ∨ off = 0x03C ∨ 0x0C0 ≤ off))

/-- R255, R15: when the next turn is the host's write to CMD of a word that decodes to a command, the step is
that command's meaning, on the state without that turn and with the write answered. -/
def Obligations.StepRunsTheCommandWritten : Prop :=
  ∀ (s : State) (rest : List Event) (w : Word) (i : Instr),
    s.inbox = .host (.write (otpBase s.cfg + 0x00C) 4 w) :: rest → decode w = .ok i →
    step s = exec i { s with inbox := rest, reply := .written }

/-- `withFetchWord` hands the very next step the command whose word it is given. -/
def Obligations.FetchedWordRunsNext : Prop :=
  ∀ (s : State) (i : Instr),
    step (s.withFetchWord 32 (encode i).toNat) = exec i { s with reply := .written }

/-- R251: an ILLEGAL word written to CMD while idle sets DONE, ERR and ERR_CODE = 5 and changes nothing else of
the block, the key included; with WIGN = 0, STATUS then reads 0x00000056. -/
def Obligations.IllegalWordIsRefused : Prop :=
  ∀ (s : State) (rest : List Event) (w : Word) (e : Illegal),
    s.inbox = .host (.write (otpBase s.cfg + 0x00C) 4 w) :: rest → busy s.block = false →
    decode w = .error e →
    ∃ t, step s = .next t ∧
      t = { s with
        inbox := rest
        reply := .written
        block := { s.block with
          status := { done := true, err := true, wign := s.block.status.wign, errCode := 5 } } } ∧
      (s.block.status.wign = false → statusWord t.block = 0x00000056)

/-! ### Register reads and writes -/

/-- R252: what a legal read answers at every offset, and that it changes no state of the block. -/
def Obligations.ReadAnswersTheRegister : Prop :=
  ∀ (s : State) (rest : List Event) (off : Nat),
    s.inbox = .host (.read (otpBase s.cfg + off) 4) :: rest → off < 4096 → off % 4 = 0 →
    ∃ v : Word,
      step s = .next { s with inbox := rest, reply := .data v } ∧
      (off = 0x000 → v = 0x4F545048) ∧
      (off = 0x004 → v = if s.cfg.hasSha512 then 0x000A4007 else 0x000A4003) ∧
      (off = 0x008 → v = s.block.ctrl) ∧
      (off = 0x00C → v = 0) ∧
      (off = 0x010 → v.toNat = (busy s.block).toNat + 2 * s.block.status.done.toNat +
        4 * s.block.status.err.toNat + 8 * s.block.status.wign.toNat +
        16 * s.block.status.errCode.toNat) ∧
      (off = 0x014 → v = s.block.irqEn) ∧
      (off = 0x018 → v = s.block.keyLen) ∧
      (off = 0x020 → v = s.block.counterHi) ∧
      (off = 0x024 → v = s.block.counterLo) ∧
      (off = 0x028 → v = s.block.truncOffset) ∧
      (off = 0x02C → v = s.block.truncValue) ∧
      (off = 0x030 → v = s.block.code) ∧
      (off = 0x034 → v = s.block.codeBcdLo) ∧
      (off = 0x038 → v = s.block.codeBcdHi) ∧
      (∀ i : Fin 16, off = 0x040 + 4 * i.val → v = 0) ∧
      (∀ i : Fin 16, off = 0x080 + 4 * i.val → v = s.block.digest[i]) ∧
      (off = 0x01C ∨ off = 0x03C ∨ 0x0C0 ≤ off → v = 0)

/-- R36, R44, R45, R43, R49: what a legal write to an operand register stores while idle; nothing else of the
block changes. -/
def Obligations.IdleOperandWritesStore : Prop :=
  ∀ (s : State) (rest : List Event) (off : Nat) (v : Word),
    s.inbox = .host (.write (otpBase s.cfg + off) 4 v) :: rest → busy s.block = false →
    (off = 0x008 → step s = .next { s with
      inbox := rest, reply := .written, block := { s.block with ctrl := v &&& 0x00010F03 } }) ∧
    (off = 0x018 → step s = .next { s with
      inbox := rest, reply := .written, block := { s.block with keyLen := v &&& 0x7F } }) ∧
    (off = 0x020 → step s = .next { s with
      inbox := rest, reply := .written, block := { s.block with counterHi := v } }) ∧
    (off = 0x024 → step s = .next { s with
      inbox := rest, reply := .written, block := { s.block with counterLo := v } }) ∧
    (∀ i : Fin 16, off = 0x040 + 4 * i.val → step s = .next { s with
      inbox := rest, reply := .written, block := { s.block with key := s.block.key.set i v } }) ∧
    (∀ i : Fin 16, off = 0x080 + 4 * i.val → step s = .next { s with
      inbox := rest, reply := .written,
      block := { s.block with digest := s.block.digest.set i v } })

/-- R42: a write to IRQ_EN stores bits 1:0 at any time, BUSY or not, and changes nothing else; a read returns
what was stored; the two bits enable DONE and ERR into `irq`; and IRQ_EN is 0 after reset. -/
def Obligations.IrqEnableIsWritableAtAnyTime : Prop :=
  ∀ (s : State) (rest : List Event) (v : Word),
    s.inbox = .host (.write (otpBase s.cfg + 0x014) 4 v) :: rest →
    ∃ t, step s = .next t ∧
      t = { s with inbox := rest, reply := .written, block := { s.block with irqEn := v &&& 0x3 } } ∧
      busRead t.cfg t.block 0x014 = v &&& 0x3 ∧
      irq t.block = ((s.block.status.done && v.getLsbD 0) || (s.block.status.err && v.getLsbD 1)) ∧
      (State.resetOf s.cfg).block.irqEn = 0

/-- R39 to R41: a write to STATUS clears the W1C bits written with 1, ERR together with ERR_CODE, BUSY or not,
and changes nothing else. -/
def Obligations.StatusWriteClearsWrittenBits : Prop :=
  ∀ (s : State) (rest : List Event) (v : Word),
    s.inbox = .host (.write (otpBase s.cfg + 0x010) 4 v) :: rest →
    step s = .next { s with
      inbox := rest
      reply := .written
      block := { s.block with
        status :=
          { done := if v.getLsbD 1 = true then false else s.block.status.done
            err := if v.getLsbD 2 = true then false else s.block.status.err
            wign := if v.getLsbD 3 = true then false else s.block.status.wign
            errCode := if v.getLsbD 2 = true then 0 else s.block.status.errCode } } }

/-- R48: a legal read of a reserved offset returns 0; a legal write to one, or to a read-only register, is
ignored and leaves WIGN; and a legal access to the window always answers a next state. -/
def Obligations.ReservedAndReadOnlyWritesAreIgnored : Prop :=
  ∀ (s : State) (rest : List Event) (off : Nat) (v : Word), off < 4096 → off % 4 = 0 →
    (s.inbox = .host (.read (otpBase s.cfg + off) 4) :: rest →
      (off = 0x01C ∨ off = 0x03C ∨ 0x0C0 ≤ off →
        step s = .next { s with inbox := rest, reply := .data 0 }) ∧
      ∃ t, step s = .next t) ∧
    (s.inbox = .host (.write (otpBase s.cfg + off) 4 v) :: rest →
      (off = 0x01C ∨ off = 0x03C ∨ 0x0C0 ≤ off ∨ off = 0x000 ∨ off = 0x004 ∨
          (0x028 ≤ off ∧ off ≤ 0x038) →
        step s = .next { s with inbox := rest, reply := .written }) ∧
      ∃ t, step s = .next t)

/-- R254: while BUSY, a write to CTRL, CMD, KEY_LEN, COUNTER_HI, COUNTER_LO, a KEY word or a DIGEST word sets
WIGN and changes nothing else, whatever the word. -/
def Obligations.BusyOperandWritesAreLost : Prop :=
  ∀ (s : State) (rest : List Event) (off : Nat) (v : Word),
    s.inbox = .host (.write (otpBase s.cfg + off) 4 v) :: rest → busy s.block = true →
    off % 4 = 0 →
    (off = 0x008 ∨ off = 0x00C ∨ off = 0x018 ∨ off = 0x020 ∨ off = 0x024 ∨
      (0x040 ≤ off ∧ off ≤ 0x07C) ∨ (0x080 ≤ off ∧ off ≤ 0x0BC)) →
    step s = .next { s with
      inbox := rest
      reply := .written
      block := { s.block with status := { s.block.status with wign := true } } }

/-- R94, R278: a step faults exactly when its turn is a host access to the window that is not 4 bytes wide or
not at a multiple of 4; no step is refused. That the address alone says whether an access is one to the window, so
that an access which begins outside and reaches into it does not fault, is the model's reading of R91 (log entry 7,
DEDUCED), and that the fault names the width beside the offset is the model's own. -/
def Obligations.OnlyIllegalAccessesFault : Prop :=
  (∀ (s : State) (f : Fault), step s = .fault f ↔
    ∃ (rest : List Event) (off width : Nat),
      off < 4096 ∧ ¬(width = 4 ∧ off % 4 = 0) ∧ f = .busError off width ∧
      (s.inbox = .host (.read (otpBase s.cfg + off) width) :: rest ∨
        ∃ v, s.inbox = .host (.write (otpBase s.cfg + off) width v) :: rest)) ∧
  (∀ (s : State) (r : Refusal), step s ≠ .refused r)

/-- An access that begins outside the window changes nothing of the block and answers a next state. R91 says that
an access outside the window never reaches the block and leaves what it does to the platform: that the machine goes
on, and that the first address alone decides at every width, is the model's choice (log entry 7, DEDUCED). -/
def Obligations.AccessOutsideTheWindowIsNotSeen : Prop :=
  ∀ (s : State) (rest : List Event) (addr width : Nat) (v : Word),
    addr < otpBase s.cfg ∨ otpBase s.cfg + 4096 ≤ addr →
    (s.inbox = .host (.read addr width) :: rest ∨ s.inbox = .host (.write addr width v) :: rest) →
    step s = .next { s with inbox := rest, reply := .notForBlock }

/-! ### The commands -/

/-- R173, R174, R257, R258: HMAC completes. Idle, with a legal ALG and a key of 1 to 64 bytes, its CMD write
starts it, and LAT(HMAC, alg) CORE steps later DIGESTBYTES is the HMAC of the counter followed by zero bytes,
the key is gone unless KEEP_KEY = 1, DONE = 1, and everything else of the block is as it was. -/
def Obligations.HmacCompletes : Prop :=
  ∀ s : State, busy s.block = false → Passes s.cfg .hmac s.block →
    ∃ (t : State) (d : Buffer),
      exec .hmac s = .next t ∧
      t = { s with block := { s.block with
        status := runningStatus s.block
        pending := some .hmac
        left := latency s.cfg .hmac (selectedAlg s.block) } } ∧
      bufferBytes d = hmac (selectedAlg s.block) (keyOperand s.block) (messageOperand s.block) ++
        zeroBytes (64 - digestLength (selectedAlg s.block)) ∧
      coreSteps (latency s.cfg .hmac (selectedAlg s.block)) t.block = { s.block with
        digest := d
        key := if ctrlKeepKey s.block then s.block.key else zeroBuffer
        keyLen := if ctrlKeepKey s.block then s.block.keyLen else 0
        status := doneStatus s.block
        pending := none
        left := 0 }

/-- R154, R150 to R152, R47, R257: TRUNC completes. Idle, with a legal ALG and 1 to 10 digits, its CMD write
starts it, and LAT(TRUNC, alg) CORE steps later the result registers hold the truncation of
`DIGESTBYTES[0 +: L]`, DONE = 1, and everything else of the block is as it was. -/
def Obligations.TruncCompletes : Prop :=
  ∀ s : State, busy s.block = false → Passes s.cfg .trunc s.block →
    ∃ (t : State) (off value code lo hi : Word),
      exec .trunc s = .next t ∧
      t = { s with block := { s.block with
        status := runningStatus s.block
        pending := some .trunc
        left := latency s.cfg .trunc (selectedAlg s.block) } } ∧
      off.toNat = dtOffset (digestOperand s.block) ∧
      value.toNat = be (window (digestOperand s.block) off.toNat 4) % 2 ^ 31 ∧
      code.toNat = value.toNat % 10 ^ ctrlDigits s.block ∧
      (∀ k, k < 8 → (lo.extractLsb' (4 * k) 4).toNat = code.toNat / 10 ^ k % 10) ∧
      (hi.extractLsb' 0 4).toNat = code.toNat / 10 ^ 8 % 10 ∧
      (hi.extractLsb' 4 4).toNat = code.toNat / 10 ^ 9 % 10 ∧
      hi.extractLsb' 8 24 = 0 ∧
      coreSteps (latency s.cfg .trunc (selectedAlg s.block)) t.block = { s.block with
        truncOffset := off
        truncValue := value
        code := code
        codeBcdLo := lo
        codeBcdHi := hi
        status := doneStatus s.block
        pending := none
        left := 0 }

/-- R240, R257, R258: HOTP completes. Idle, with a legal ALG, a key of 1 to 64 bytes and 1 to 10 digits, its CMD
write starts it, and LAT(HOTP, alg) CORE steps later the digest buffer holds the HMAC of the counter, the result
registers its truncation, the key is gone unless KEEP_KEY = 1, DONE = 1, and everything else is as it was. -/
def Obligations.HotpCompletes : Prop :=
  ∀ s : State, busy s.block = false → Passes s.cfg .hotp s.block →
    ∃ (t : State) (D : List Byte) (d : Buffer) (off value code : Word),
      exec .hotp s = .next t ∧
      t = { s with block := { s.block with
        status := runningStatus s.block
        pending := some .hotp
        left := latency s.cfg .hotp (selectedAlg s.block) } } ∧
      D = hmac (selectedAlg s.block) (keyOperand s.block) (messageOperand s.block) ∧
      bufferBytes d = D ++ zeroBytes (64 - digestLength (selectedAlg s.block)) ∧
      off.toNat = dtOffset D ∧
      value.toNat = be (window D off.toNat 4) % 2 ^ 31 ∧
      code.toNat = value.toNat % 10 ^ ctrlDigits s.block ∧
      coreSteps (latency s.cfg .hotp (selectedAlg s.block)) t.block = { s.block with
        digest := d
        truncOffset := off
        truncValue := value
        code := code
        codeBcdLo := BitVec.ofNat 32 (bcdLo code.toNat)
        codeBcdHi := BitVec.ofNat 32 (bcdHi code.toNat)
        key := if ctrlKeepKey s.block then s.block.key else zeroBuffer
        keyLen := if ctrlKeepKey s.block then s.block.keyLen else 0
        status := doneStatus s.block
        pending := none
        left := 0 }

/-- R250: ZEROIZE (word 4) completes in its own CMD write while idle: the key, KEY_LEN, the digest and every
result are zero, DONE = 1, ERR = 0, ERR_CODE = 0, CTRL, the counter, IRQ_EN, WIGN and PENDING are as they were,
and with WIGN = 0 STATUS then reads 0x00000002. On a block that is already zero only the flags change. While BUSY
it is lost and sets WIGN. -/
def Obligations.ZeroizeErasesKeyAndResults : Prop :=
  decode 0x00000004 = .ok .zeroize ∧
  (∀ s : State, busy s.block = false →
    ∃ t : State, exec .zeroize s = .next t ∧ t = { s with block := t.block } ∧
      (∀ i : Fin 16, t.block.key[i] = 0) ∧ t.block.keyLen = 0 ∧
      (∀ i : Fin 16, t.block.digest[i] = 0) ∧
      t.block.truncOffset = 0 ∧ t.block.truncValue = 0 ∧ t.block.code = 0 ∧
      t.block.codeBcdLo = 0 ∧ t.block.codeBcdHi = 0 ∧
      t.block.status = doneStatus s.block ∧
      t.block.ctrl = s.block.ctrl ∧ t.block.irqEn = s.block.irqEn ∧
      t.block.counterHi = s.block.counterHi ∧ t.block.counterLo = s.block.counterLo ∧
      t.block.pending = none ∧ t.block.left = s.block.left ∧
      (s.block.status.wign = false → statusWord t.block = 0x00000002) ∧
      ((∀ i : Fin 16, s.block.key[i] = 0) → s.block.keyLen = 0 →
        (∀ i : Fin 16, s.block.digest[i] = 0) → s.block.truncOffset = 0 →
        s.block.truncValue = 0 → s.block.code = 0 → s.block.codeBcdLo = 0 →
        s.block.codeBcdHi = 0 → t.block = { s.block with status := doneStatus s.block })) ∧
  (∀ s : State, busy s.block = true →
    exec .zeroize s = .next { s with
      block := { s.block with status := { s.block.status with wign := true } } })

/-- R254: every command written while BUSY is lost, sets WIGN, and changes nothing else. -/
def Obligations.CommandsAreLostWhileBusy : Prop :=
  ∀ (s : State) (i : Instr), busy s.block = true →
    exec i s = .next { s with
      block := { s.block with status := { s.block.status with wign := true } } }

/-- R273 to R277, R256, R258: an idle block reports exactly the first failing check of HMAC, TRUNC or HOTP, in
the order INVALID_ALG, INVALID_SECRET, KEY_TOO_LONG, INVALID_DIGITS. DONE and ERR are set, the key is zeroised
only for HMAC and HOTP with KEEP_KEY = 0, and nothing else of the block changes. When no check fails the command
starts and no error is reported; TRUNC checks no key, and HMAC checks no digit count. -/
def Obligations.FirstFailingCheckIsReported : Prop :=
  ∀ (s : State) (op : Op), busy s.block = false →
    let badAlg := ctrlAlg s.block = 3 ∨ (ctrlAlg s.block = 2 ∧ s.cfg.hasSha512 = false)
    let noKey := keyed op = true ∧ s.block.keyLen.toNat = 0
    let longKey := keyed op = true ∧ 65 ≤ s.block.keyLen.toNat
    let badDigits := truncates op = true ∧ (ctrlDigits s.block = 0 ∨ 11 ≤ ctrlDigits s.block)
    (∀ code : BitVec 4,
      (badAlg ∧ code = 3) ∨ (¬badAlg ∧ noKey ∧ code = 1) ∨ (¬badAlg ∧ longKey ∧ code = 4) ∨
        (¬badAlg ∧ ¬noKey ∧ ¬longKey ∧ badDigits ∧ code = 2) →
      exec (commandOf op) s = .next { s with
        block := { s.block with
          status := { done := true, err := true, wign := s.block.status.wign, errCode := code }
          key := if keyed op && !ctrlKeepKey s.block then zeroBuffer else s.block.key
          keyLen := if keyed op && !ctrlKeepKey s.block then 0 else s.block.keyLen } }) ∧
    (¬badAlg ∧ ¬noKey ∧ ¬longKey ∧ ¬badDigits →
      exec (commandOf op) s = .next { s with
        block := { s.block with
          status := runningStatus s.block
          pending := some op
          left := latency s.cfg op (selectedAlg s.block) } })

/-- R241: from any idle state in which HOTP passes its checks, its completion leaves the digest, the results and
the key exactly as HMAC with KEEP_KEY forced to 1, then TRUNC, then the key zeroisation of R258 would. -/
def Obligations.HotpIsHmacThenTrunc : Prop :=
  ∀ s : State, busy s.block = false → Passes s.cfg .hotp s.block →
    ∃ t u v : State,
      exec .hotp s = .next t ∧
      exec .hmac { s with block := { s.block with ctrl := s.block.ctrl ||| 0x00010000 } } = .next u ∧
      exec .trunc { u with
        block := coreSteps (latency s.cfg .hmac (selectedAlg s.block)) u.block } = .next v ∧
      (let one := coreSteps (latency s.cfg .hotp (selectedAlg s.block)) t.block
       let two := coreSteps (latency s.cfg .trunc (selectedAlg s.block)) v.block
       let last := if ctrlKeepKey s.block then two else zeroiseKey two
       one.digest = last.digest ∧ one.truncOffset = last.truncOffset ∧
       one.truncValue = last.truncValue ∧ one.code = last.code ∧
       one.codeBcdLo = last.codeBcdLo ∧ one.codeBcdHi = last.codeBcdHi ∧
       one.key = last.key ∧ one.keyLen = last.keyLen)

/-- R242(d), R313: after a HOTP command with KEEP_KEY = 0 has completed, a second one without a new key ends in
INVALID_SECRET and leaves the results of the first. -/
def Obligations.HotpWithoutReloadFails : Prop :=
  ∀ s : State, busy s.block = false → Passes s.cfg .hotp s.block →
    ctrlKeepKey s.block = false →
    ∃ t u v : State,
      exec .hotp s = .next t ∧
      u = { t with block := coreSteps (latency s.cfg .hotp (selectedAlg s.block)) t.block } ∧
      exec .hotp u = .next v ∧
      v.block.status.err = true ∧ v.block.status.errCode = 1 ∧ v.block.pending = none ∧
      v.block.digest = u.block.digest ∧ v.block.code = u.block.code

/-! ### The CORE agent -/

/-- R257, R320: a CORE turn that is not the last changes only the number of steps left, which the host cannot
see, and with PENDING = NONE it changes nothing. That the CORE moves when no turn is waiting is the model's choice
(log entry 2). The last CORE turn is `CoreTurnsCompleteTheCommand`'s. -/
def Obligations.InternalCoreStepsAreInvisible : Prop :=
  ∀ (s : State) (rest : List Event),
    (s.inbox = .core :: rest ∨ (s.inbox = [] ∧ rest = [])) →
    (s.block.pending = none → step s = .next { s with inbox := rest }) ∧
    (∀ op, s.block.pending = some op → 1 < s.block.left →
      ∃ t, step s = .next t ∧
        t = { s with inbox := rest, block := { s.block with left := s.block.left - 1 } } ∧
        sameView s.cfg s.block t.block)

/-- R320: an accepted command completes. From any state of the invariant with a command pending and no other
turn waiting, at most LAT(op, alg) steps later the block is idle with DONE = 1 and ERR = 0. -/
def Obligations.AcceptedCommandsComplete : Prop :=
  ∀ (s : State) (op : Op), s.Inv → s.inbox = [] → s.block.pending = some op →
    ∃ (n : Nat) (t : State), 1 ≤ n ∧ n ≤ latency s.cfg op (selectedAlg s.block) ∧
      core.run n s = .next t ∧
      busy t.block = false ∧ t.block.status.done = true ∧ t.block.status.err = false

/-! ### Rules over every step -/

/-- R46, R47: the truncation results change only in the completion step of TRUNC or HOTP, in ZEROIZE while
idle, and in RESET. -/
def Obligations.ResultsChangeOnlyByTheirWriters : Prop :=
  ∀ s t : State, step s = .next t →
    ((t.block.truncOffset, t.block.truncValue, t.block.code, t.block.codeBcdLo, t.block.codeBcdHi) =
      (s.block.truncOffset, s.block.truncValue, s.block.code, s.block.codeBcdLo,
        s.block.codeBcdHi)) ∨
    (∃ op, s.block.pending = some op ∧ truncates op = true ∧ t.block.pending = none ∧
      (s.inbox = [] ∨ s.inbox.head? = some .core)) ∨
    (busy s.block = false ∧
      s.inbox.head? = some (.host (.write (otpBase s.cfg + 0x00C) 4 0x00000004))) ∨
    s.inbox.head? = some .reset

/-- R254, R257, R45: while a command is pending, no turn but RESET changes CTRL or the counter, and no turn but
RESET and the CORE turn that completes the command changes the key, KEY_LEN, the digest or PENDING. -/
def Obligations.BusyOperandsAreFixed : Prop :=
  ∀ (s t : State) (op : Op), step s = .next t → s.block.pending = some op →
    s.inbox.head? ≠ some .reset →
    t.block.ctrl = s.block.ctrl ∧ t.block.counterHi = s.block.counterHi ∧
    t.block.counterLo = s.block.counterLo ∧
    ((t.block.pending = some op ∧ t.block.key = s.block.key ∧
        t.block.keyLen = s.block.keyLen ∧ t.block.digest = s.block.digest) ∨
      (t.block.pending = none ∧ (s.inbox = [] ∨ s.inbox.head? = some .core) ∧
        t.block = complete op s.block))

/-- R45: the block never changes COUNTER itself: a step changes COUNTER_HI or COUNTER_LO only when it is RESET
or the host's write to that register while idle, which stores the word written. -/
def Obligations.CounterChangesOnlyByTheHost : Prop :=
  ∀ s t : State, step s = .next t →
    (t.block.counterHi = s.block.counterHi ∨ s.inbox.head? = some .reset ∨
      (busy s.block = false ∧
        s.inbox.head? = some (.host (.write (otpBase s.cfg + 0x020) 4 t.block.counterHi)))) ∧
    (t.block.counterLo = s.block.counterLo ∨ s.inbox.head? = some .reset ∨
      (busy s.block = false ∧
        s.inbox.head? = some (.host (.write (otpBase s.cfg + 0x024) 4 t.block.counterLo))))

/-- R41, R279: WIGN stays set until a host write of 1 to STATUS bit 3 or RESET; no command clears it. -/
def Obligations.WignIsSticky : Prop :=
  ∀ s t : State, step s = .next t → s.block.status.wign = true →
    t.block.status.wign = true ∨ s.inbox.head? = some .reset ∨
    ∃ v : Word, v.getLsbD 3 = true ∧ t.block.status.wign = false ∧
      s.inbox.head? = some (.host (.write (otpBase s.cfg + 0x010) 4 v))

/-- R54: ERR = 1 with DONE = 0 arises only by a host write of 1 to STATUS bit 1. -/
def Obligations.ErrWithoutDoneComesFromTheHost : Prop :=
  ∀ s t : State, step s = .next t →
    t.block.status.err = true → t.block.status.done = false →
    (s.block.status.err = true ∧ s.block.status.done = false) ∨
    ∃ v : Word, v.getLsbD 1 = true ∧ v.getLsbD 2 = false ∧
      s.inbox.head? = some (.host (.write (otpBase s.cfg + 0x010) 4 v))

/-- R281, R256, R280: acceptance deasserts `irq`, and the end of every command asserts it when the enables say so.
An accepted HMAC, TRUNC or HOTP leaves `irq` = 0; the step in which a command completes leaves `irq` = DONE_IE,
given that ERR was 0 while it ran; so does ZEROIZE; and a command that fails a check, or an illegal word, leaves
`irq` = 1 exactly when DONE_IE or ERR_IE is 1. -/
def Obligations.InterruptFollowsTheCommand : Prop :=
  (∀ (s : State) (op : Op), busy s.block = false → Passes s.cfg op s.block →
    ∃ t, exec (commandOf op) s = .next t ∧ irq t.block = false) ∧
  (∀ s t : State, s.Inv → step s = .next t → busy s.block = true → busy t.block = false →
    s.inbox.head? ≠ some .reset → irq t.block = doneIE s.block) ∧
  (∀ s : State, busy s.block = false →
    ∃ t, exec .zeroize s = .next t ∧ irq t.block = doneIE s.block) ∧
  (∀ (s : State) (op : Op), busy s.block = false → ¬Passes s.cfg op s.block →
    ∃ t, exec (commandOf op) s = .next t ∧ irq t.block = (doneIE s.block || errIE s.block)) ∧
  (∀ (s : State) (rest : List Event) (w : Word) (e : Illegal),
    s.inbox = .host (.write (otpBase s.cfg + 0x00C) 4 w) :: rest → busy s.block = false →
    decode w = .error e →
    ∃ t, step s = .next t ∧ irq t.block = (doneIE s.block || errIE s.block))

/-! ### What may not be learned, and what time may not depend on -/

/-- R43, R98: no read tells one key from another: two blocks that differ only in the KEY words answer every read
alike, and assert `irq` alike. -/
def Obligations.KeyWordsAreNotReadable : Prop :=
  ∀ (cfg : Config) (b : Block) (k : Buffer), sameView cfg b { b with key := k }

/-- R322: the timing does not depend on the key words, the counter, the digest or the results. Two machines that
differ at most in those, given turns that differ at most in the values written to the key, counter and digest
registers, step alike: both fault alike, or both go on, with the same STATUS and `irq`, and still differ at most
in those. -/
def Obligations.TimingDoesNotDependOnData : Prop :=
  ∀ s s' : State, SameControl s s' →
    (∃ f, step s = .fault f ∧ step s' = .fault f) ∨
    (∃ t t', step s = .next t ∧ step s' = .next t' ∧ SameControl t t' ∧
      statusWord t.block = statusWord t'.block ∧ irq t.block = irq t'.block)

/-- R322: nor does it depend on the digit count. Two idle blocks of one build with the same ALG that both pass
the checks of a command, with the same WIGN and IRQ_EN, show the same STATUS and `irq` after every number of
CORE steps from its acceptance. -/
def Obligations.TimingDoesNotDependOnDigits : Prop :=
  ∀ (s s' : State) (op : Op), s.cfg = s'.cfg → busy s.block = false → busy s'.block = false →
    Passes s.cfg op s.block → Passes s'.cfg op s'.block →
    ctrlAlg s.block = ctrlAlg s'.block → s.block.status.wign = s'.block.status.wign →
    s.block.irqEn = s'.block.irqEn →
    ∃ t t', exec (commandOf op) s = .next t ∧ exec (commandOf op) s' = .next t' ∧
      ∀ n, statusWord (coreSteps n t.block) = statusWord (coreSteps n t'.block) ∧
        irq (coreSteps n t.block) = irq (coreSteps n t'.block)

/-! ### Truncation -/

/-- R150 to R152: for a digest of 20, 32 or 64 bytes, the offset is the last byte's low four bits, the four bytes
lie before the last one, the value is those bytes read big-endian with bit 31 cleared, the code is the value
modulo 10^d, and for d = 10 it is the value, whose leading digit is 0, 1 or 2. -/
def Obligations.TruncationOfADigest : Prop :=
  ∀ (alg : Alg) (D : List Byte) (d : Nat), D.length = digestLength alg → 1 ≤ d → d ≤ 10 →
    dtOffset D = (D.getD (D.length - 1) 0).toNat % 16 ∧
    dtOffset D + 3 < D.length - 1 ∧
    dtValue D = ((D.getD (dtOffset D) 0).toNat * 2 ^ 24 + (D.getD (dtOffset D + 1) 0).toNat * 2 ^ 16 +
      (D.getD (dtOffset D + 2) 0).toNat * 2 ^ 8 + (D.getD (dtOffset D + 3) 0).toNat) % 2 ^ 31 ∧
    dtCode D d = dtValue D % 10 ^ d ∧ dtCode D d < 10 ^ d ∧
    (d = 10 → dtCode D d = dtValue D ∧ bcdDigit (dtCode D d) 9 ≤ 2)

/-- R156: the truncation reads only the last byte and the four bytes at the offset. -/
def Obligations.TruncationReadsFiveBytes : Prop :=
  ∀ (alg : Alg) (D E : List Byte) (d : Nat), D.length = digestLength alg → E.length = D.length →
    E[D.length - 1]? = D[D.length - 1]? →
    (∀ i, dtOffset D ≤ i → i ≤ dtOffset D + 3 → E[i]? = D[i]?) →
    dtOffset E = dtOffset D ∧ dtValue E = dtValue D ∧ dtCode E d = dtCode D d

/-- R47: the BCD registers hold the ten decimal digits of a code below 2^31, digit k of CODE_BCD_LO in bits
4k+3:4k, digits 8 and 9 in CODE_BCD_HI bits 3:0 and 7:4, bits 31:8 zero; and the digits d to 9 of a code below
10^d are zero. -/
def Obligations.BcdRegistersHoldTheDigits : Prop :=
  ∀ c : Nat, c < 2 ^ 31 →
    (∀ k, k < 8 → ((BitVec.ofNat 32 (bcdLo c)).extractLsb' (4 * k) 4).toNat = c / 10 ^ k % 10) ∧
    ((BitVec.ofNat 32 (bcdHi c)).extractLsb' 0 4).toNat = c / 10 ^ 8 % 10 ∧
    ((BitVec.ofNat 32 (bcdHi c)).extractLsb' 4 4).toNat = c / 10 ^ 9 % 10 ∧
    (BitVec.ofNat 32 (bcdHi c)).extractLsb' 8 24 = 0 ∧
    (∀ d k, c < 10 ^ d → d ≤ k → bcdDigit c k = 0) ∧
    c = ((List.range 10).map fun k => bcdDigit c k * 10 ^ k).sum

/-! ### The key, the message and the hash functions -/

/-- R92, R43, R45, R49: byte 4i + j of a buffer of registers is bits 31-8j:24-8j of word i, and the message is the
bytes of COUNTER_HI, then those of COUNTER_LO. -/
def Obligations.BytesArePackedBigEndian : Prop :=
  (∀ (b : Buffer) (i : Fin 16) (j : Fin 4),
    (bufferBytes b)[4 * i.val + j.val]? = some (b[i].extractLsb' (24 - 8 * j.val) 8)) ∧
  (∀ (b : Block) (j : Fin 4),
    (messageOperand b)[j.val]? = some (b.counterHi.extractLsb' (24 - 8 * j.val) 8) ∧
    (messageOperand b)[4 + j.val]? = some (b.counterLo.extractLsb' (24 - 8 * j.val) 8)) ∧
  (∀ b : Block, (messageOperand b).length = 8)

/-- R175: only the first KEY_LEN bytes of KEYBYTES are the key, and zero bytes take the place of the others in K0,
whatever the KEY words hold there: two idle machines that agree but for those bytes end an HMAC with the same
digest. -/
def Obligations.KeyBytesPastTheLengthAreIgnored : Prop :=
  ∀ (s : State) (k : Buffer), busy s.block = false → Passes s.cfg .hmac s.block →
    keyBlock (selectedAlg s.block) (keyOperand s.block) =
      (bufferBytes s.block.key).take s.block.keyLen.toNat ++
        zeroBytes (blockLength (selectedAlg s.block) - s.block.keyLen.toNat) ∧
    ((∀ i, i < s.block.keyLen.toNat → (bufferBytes k)[i]? = (bufferBytes s.block.key)[i]?) →
      ∃ t u : State, exec .hmac s = .next t ∧
        exec .hmac { s with block := { s.block with key := k } } = .next u ∧
        (coreSteps (latency s.cfg .hmac (selectedAlg s.block)) t.block).digest =
          (coreSteps (latency s.cfg .hmac (selectedAlg s.block)) u.block).digest)

/-- R177(c): a key that ends in a zero byte has the same HMAC as the key without it. -/
def Obligations.TrailingZeroKeyByteChangesNothing : Prop :=
  ∀ (alg : Alg) (k m : List Byte), k.length < blockLength alg → hmac alg (k ++ [0]) m = hmac alg k m

/-- R190, R210: the padding appends 0x80, the fewest zero bytes that make the length 56 modulo 64 (112 modulo
128 for SHA-512), and the length in bits, big-endian in 8 (16) bytes; the result is a multiple of the block. -/
def Obligations.PaddingIsTheLeast : Prop :=
  ∀ m : List Byte,
    (∃ k, padMessage 64 8 m = m ++ [0x80] ++ zeroBytes k ++ beBytes 8 (8 * m.length) ∧
      (m.length + 1 + k) % 64 = 56 ∧ (∀ j, (m.length + 1 + j) % 64 = 56 → k ≤ j) ∧
      (padMessage 64 8 m).length % 64 = 0) ∧
    (∃ k, padMessage 128 16 m = m ++ [0x80] ++ zeroBytes k ++ beBytes 16 (8 * m.length) ∧
      (m.length + 1 + k) % 128 = 112 ∧ (∀ j, (m.length + 1 + j) % 128 = 112 → k ≤ j) ∧
      (padMessage 128 16 m).length % 128 = 0)

/-- R195, R203, R214: the message schedules of a block of sixteen words begin with its words and satisfy their
recurrences. -/
def Obligations.SchedulesMeetTheirRecurrences : Prop :=
  (∀ M : List (BitVec 32), M.length = 16 →
    (sha1Schedule M).length = 80 ∧ (sha1Schedule M).take 16 = M ∧
    ∀ t, 16 ≤ t → t < 80 → (sha1Schedule M).getD t 0 =
      ((sha1Schedule M).getD (t - 3) 0 ^^^ (sha1Schedule M).getD (t - 8) 0 ^^^
        (sha1Schedule M).getD (t - 14) 0 ^^^ (sha1Schedule M).getD (t - 16) 0).rotateLeft 1) ∧
  (∀ M : List (BitVec 32), M.length = 16 →
    (sha256Schedule M).length = 64 ∧ (sha256Schedule M).take 16 = M ∧
    ∀ t, 16 ≤ t → t < 64 → (sha256Schedule M).getD t 0 =
      sha256SmallSigma1 ((sha256Schedule M).getD (t - 2) 0) + (sha256Schedule M).getD (t - 7) 0 +
        sha256SmallSigma0 ((sha256Schedule M).getD (t - 15) 0) +
        (sha256Schedule M).getD (t - 16) 0) ∧
  (∀ M : List (BitVec 64), M.length = 16 →
    (sha512Schedule M).length = 80 ∧ (sha512Schedule M).take 16 = M ∧
    ∀ t, 16 ≤ t → t < 80 → (sha512Schedule M).getD t 0 =
      sha512SmallSigma1 ((sha512Schedule M).getD (t - 2) 0) + (sha512Schedule M).getD (t - 7) 0 +
        sha512SmallSigma0 ((sha512Schedule M).getD (t - 15) 0) +
        (sha512Schedule M).getD (t - 16) 0)

/-- R176: one HMAC of a key of at most 64 bytes and a message of 8 takes four compressions, two of the inner
message's two blocks and two of the outer message's two blocks. -/
def Obligations.HmacIsFourCompressions : Prop :=
  ∀ k m : List Byte, k.length ≤ 64 → m.length = 8 →
    (∃ b1 b2 b3 b4 : List (BitVec 32),
      let inner := sha1Compress (sha1Compress sha1Init b1) b2
      let outer := sha1Compress (sha1Compress sha1Init b3) b4
      let bytes := fun h : Hash5 => [h.a, h.b, h.c, h.d, h.e].flatMap fun x => beBytes 4 x.toNat
      messageBlocks 32 (padMessage 64 8 (paddedKey .sha1 0x36 k ++ m)) = [b1, b2] ∧
      messageBlocks 32 (padMessage 64 8 (paddedKey .sha1 0x5C k ++ bytes inner)) = [b3, b4] ∧
      hmac .sha1 k m = bytes outer) ∧
    (∃ b1 b2 b3 b4 : List (BitVec 32),
      let inner := sha256Compress (sha256Compress sha256Init b1) b2
      let outer := sha256Compress (sha256Compress sha256Init b3) b4
      let bytes := fun h : Hash8 32 => (hash8Words h).flatMap fun x => beBytes 4 x.toNat
      messageBlocks 32 (padMessage 64 8 (paddedKey .sha256 0x36 k ++ m)) = [b1, b2] ∧
      messageBlocks 32 (padMessage 64 8 (paddedKey .sha256 0x5C k ++ bytes inner)) = [b3, b4] ∧
      hmac .sha256 k m = bytes outer) ∧
    (∃ b1 b2 b3 b4 : List (BitVec 64),
      let inner := sha512Compress (sha512Compress sha512Init b1) b2
      let outer := sha512Compress (sha512Compress sha512Init b3) b4
      let bytes := fun h : Hash8 64 => (hash8Words h).flatMap fun x => beBytes 8 x.toNat
      messageBlocks 64 (padMessage 128 16 (paddedKey .sha512 0x36 k ++ m)) = [b1, b2] ∧
      messageBlocks 64 (padMessage 128 16 (paddedKey .sha512 0x5C k ++ bytes inner)) = [b3, b4] ∧
      hmac .sha512 k m = bytes outer)

/-! ### The host -/

/-- R324, R310: a host that keeps its duties never faults and never loses a write: from a state with WIGN = 0, a
dutiful turn answers a next state with WIGN = 0. -/
def Obligations.DutifulHostLosesNoWrite : Prop :=
  ∀ (s : State) (e : Event) (rest : List Event), s.inbox = e :: rest → dutiful s e →
    s.block.status.wign = false →
    ∃ t, step s = .next t ∧ t.inbox = rest ∧ t.block.status.wign = false

/-- R129, R130: run against an idle block, the expansion of `LDKEY S` (0 to 64 bytes) sets KEY_LEN to the length of
S and the first ceil(n/4) KEY words to the words of S followed by zero bytes, leaves the other KEY words and
everything else of the block as they were, and makes exactly those writes; so S is the key a command then uses. The
run is the model's host layer (log entry 6). -/
def Obligations.LdkeyLoadsTheKey : Prop :=
  ∀ (r : HostRun) (S : List Byte), S.length ≤ 64 → r.place = 0 →
    r.status = .running → r.program = expandPseudo 0 (.ldkey S) → busy r.machine.block = false →
    let words := (S.length + 3) / 4
    let word := fun i => BitVec.ofNat 32 (be (window (S ++ zeroBytes ((4 - S.length % 4) % 4)) (4 * i) 4))
    ∃ t : HostRun, runTurns (List.replicate r.program.length .line) r = t ∧
      t.status = .running ∧ t.place = r.program.length ∧
      t.made = r.made ++ .write 0x018 (BitVec.ofNat 32 S.length) ::
        (List.range words).map (fun i => .write (0x040 + 4 * i) (word i)) ∧
      t.machine.block.keyLen.toNat = S.length ∧
      (∀ i : Fin 16, i.val < words → t.machine.block.key[i] = word i.val) ∧
      (∀ i : Fin 16, words ≤ i.val → t.machine.block.key[i] = r.machine.block.key[i]) ∧
      t.machine.block =
        { r.machine.block with key := t.machine.block.key, keyLen := t.machine.block.keyLen } ∧
      keyOperand t.machine.block = S

/-- R323: a run of a host program ends only at a `halt` with PENDING = NONE, and ending changes nothing of the
machine. -/
def Obligations.RunsEndOnlyAtAnIdleHalt : Prop :=
  ∀ (r : HostRun) (t : Turn), r.status ≠ .finished → (runTurn t r).status = .finished →
    t = .line ∧ r.program[r.place]? = some .halt ∧ r.status = .running ∧
    (runTurn t r).machine = r.machine ∧ finishedRun (runTurn t r)

/-- R278, R323: a bus error changes no state of the block and marks the run faulted, and a faulted run never ends
normally. -/
def Obligations.BusErrorsSpoilTheRunOnly : Prop :=
  (∀ (r : HostRun) (off width : Nat) (v : Word), off < 4096 → ¬(width = 4 ∧ off % 4 = 0) →
    r.status ≠ .finished →
    runTurn (.agent (.host (.read (otpBase r.machine.cfg + off) width))) r =
        { r with status := .faulted } ∧
    runTurn (.agent (.host (.write (otpBase r.machine.cfg + off) width v))) r =
        { r with status := .faulted }) ∧
  (∀ (r : HostRun) (ts : List Turn), r.status = .faulted → (runTurns ts r).status = .faulted)

/-! ### The last CORE step, and the lines of a host program -/

/-- R257, R320: a CORE turn is one CORE step of the block and nothing else; the one that finds 1 step left is the
command's completion, with every result of it; and n steps with no turn waiting are n CORE steps. That the CORE moves
when no turn is waiting is the model's choice (log entry 2). -/
def Obligations.CoreTurnsCompleteTheCommand : Prop :=
  (∀ (s : State) (rest : List Event),
    (s.inbox = .core :: rest ∨ (s.inbox = [] ∧ rest = [])) →
    step s = .next { s with inbox := rest, block := coreStep s.block } ∧
    ∀ op, s.block.pending = some op → s.block.left = 1 →
      step s = .next { s with inbox := rest, block := complete op s.block }) ∧
  (∀ (s : State) (n : Nat), s.inbox = [] →
    core.run n s = .next { s with block := coreSteps n s.block })

/-- R128, R129: a WR line is the host's write of its value to the register's offset, an RD line the host's read
into its variable, each goes on to the next line and joins the transactions the run has made, with the variables'
values at that moment; a label, an assignment and a jump leave the machine and those transactions as they were, and a
jump that is taken goes to a line with its label when there is one. The run is the model's host layer (log entry 6). -/
def Obligations.LinesMakeTheirTransactions : Prop :=
  ∀ (r : HostRun) (l : HostLine), r.status ≠ .finished → r.program[r.place]? = some l →
    (∀ reg e, l = .wr reg e → ∃ m,
      step { r.machine with inbox := [.host (.write (otpBase r.machine.cfg + reg.offset) 4
        (BitVec.ofNat 32 (evalExpr r.vars e)))] } = .next m ∧
      runTurn .line r = { r with
        place := r.place + 1
        machine := m
        made := r.made ++ [.write reg.offset (BitVec.ofNat 32 (evalExpr r.vars e))] }) ∧
    (∀ reg x, l = .rd reg x → ∃ m,
      step { r.machine with inbox := [.host (.read (otpBase r.machine.cfg + reg.offset) 4)] } =
        .next m ∧
      m.reply = .data (readRegister r.machine.cfg r.machine.block reg) ∧
      runTurn .line r = { r with
        place := r.place + 1
        vars := (x, (readRegister r.machine.cfg r.machine.block reg).toNat) :: r.vars
        machine := m
        made := r.made ++ [.read reg.offset] }) ∧
    (∀ x e, l = .assign x e →
      runTurn .line r = { r with place := r.place + 1, vars := (x, evalExpr r.vars e) :: r.vars }) ∧
    (∀ n, l = .label n → runTurn .line r = { r with place := r.place + 1 }) ∧
    (∀ n, (l = .goto n ∨ ∃ c, l = .ifGoto c n ∧ evalCond r.vars c = true) →
      ∃ p, runTurn .line r = { r with place := p } ∧
        (.label n ∈ r.program → r.program[p]? = some (.label n))) ∧
    (∀ c n, l = .ifGoto c n → evalCond r.vars c = false →
      runTurn .line r = { r with place := r.place + 1 })
end

