-- ==== Sys2Proof/Laws/Bytes.lean ====
section
/-! SUPPORT. Byte strings: lengths, the big-endian reading of an encoding and back, buffers as 64 bytes. -/

namespace Sys2Proof.Machine

@[simp] theorem beBytes_length (n v : Nat) : (beBytes n v).length = n := by
  induction n with
  | zero => rfl
  | succ n ih => simp [beBytes, ih]

@[simp] theorem zeroBytes_length (n : Nat) : (zeroBytes n).length = n := by
  simp [zeroBytes]

theorem window_length (bs : List Byte) (i n : Nat) (h : i + n ≤ bs.length) :
    (window bs i n).length = n := by
  simp [window]; omega

theorem be_foldl (bs : List Byte) (acc : Nat) :
    bs.foldl (fun acc b => acc * 256 + b.toNat) acc = acc * 256 ^ bs.length + be bs := by
  induction bs generalizing acc with
  | nil => simp [be]
  | cons b bs ih =>
    simp only [be, List.foldl_cons, List.length_cons]
    rw [ih, ih (0 * 256 + b.toNat)]
    ring

theorem be_cons (b : Byte) (bs : List Byte) : be (b :: bs) = b.toNat * 256 ^ bs.length + be bs := by
  have h := be_foldl bs (0 * 256 + b.toNat)
  simpa [be] using h

theorem be_lt (bs : List Byte) : be bs < 256 ^ bs.length := by
  induction bs with
  | nil => simp [be]
  | cons b bs ih =>
    rw [be_cons, List.length_cons, pow_succ]
    have := b.isLt
    nlinarith

/-- Reading an encoding back gives the value, modulo 256^n (R10). -/
theorem be_beBytes (n v : Nat) : be (beBytes n v) = v % 256 ^ n := by
  induction n with
  | zero => simp [beBytes, be, Nat.mod_one]
  | succ n ih =>
    have hm : v % 256 ^ (n + 1) = v % 256 ^ n + 256 ^ n * (v / 256 ^ n % 256) := by
      rw [pow_succ, Nat.mod_mul]
    rw [beBytes, be_cons, ih, beBytes_length, BitVec.toNat_ofNat, hm,
      show (2 : Nat) ^ 8 = 256 by norm_num]
    ring

/-- Encoding what was read gives the bytes back (R10). -/
theorem beBytes_be (bs : List Byte) : beBytes bs.length (be bs) = bs := by
  have aux : ∀ (bs : List Byte) (c : Nat), beBytes bs.length (c * 256 ^ bs.length + be bs) = bs := by
    intro bs
    induction bs with
    | nil => intro c; rfl
    | cons b bs ih =>
      intro c
      have hlt := be_lt bs
      simp only [List.length_cons, beBytes, be_cons]
      congr 1
      · apply BitVec.eq_of_toNat_eq
        rw [BitVec.toNat_ofNat]
        have h : (c * 256 ^ (bs.length + 1) + (b.toNat * 256 ^ bs.length + be bs)) / 256 ^ bs.length
            = c * 256 + b.toNat := by
          rw [show c * 256 ^ (bs.length + 1) + (b.toNat * 256 ^ bs.length + be bs)
            = be bs + 256 ^ bs.length * (c * 256 + b.toNat) by ring]
          rw [Nat.add_mul_div_left _ _ (by positivity), Nat.div_eq_of_lt hlt, Nat.zero_add]
        rw [h]
        have := b.isLt
        omega
      · rw [show c * 256 ^ (bs.length + 1) + (b.toNat * 256 ^ bs.length + be bs)
          = (c * 256 + b.toNat) * 256 ^ bs.length + be bs by ring]
        exact ih _
  simpa using aux bs 0

theorem pieces_length {α : Type} (n k : Nat) (l : List α) : (pieces n k l).length = k := by
  induction k generalizing l with
  | zero => rfl
  | succ k ih => simp [pieces, ih]

theorem pieces_getElem? {α : Type} (n k : Nat) (l : List α) (i : Nat) (h : i < k) :
    (pieces n k l)[i]? = some ((l.drop (n * i)).take n) := by
  induction k generalizing l i with
  | zero => omega
  | succ k ih =>
    cases i with
    | zero => simp [pieces]
    | succ i =>
      simp only [pieces, List.getElem?_cons_succ]
      rw [ih _ _ (by omega), List.drop_drop]
      congr 3
      ring

/-- The pieces of a string, encoded again one by one, are the string. -/
theorem flatMap_pieces (bs : List Byte) (k : Nat) (h : bs.length = 4 * k) :
    (List.range k).flatMap (fun i => beBytes 4 (be (window bs (4 * i) 4))) = bs := by
  induction k generalizing bs with
  | zero =>
    have : bs = [] := List.eq_nil_of_length_eq_zero (by omega)
    simp [this]
  | succ k ih =>
    rw [List.range_succ_eq_map, List.flatMap_cons, List.flatMap_map]
    have h1 : beBytes 4 (be (window bs (4 * 0) 4)) = bs.take 4 := by
      have hl : (bs.take 4).length = 4 := by simp; omega
      have := beBytes_be (bs.take 4)
      rw [hl] at this
      simpa [window] using this
    have h2 : ∀ i, window bs (4 * (i + 1)) 4 = window (bs.drop 4) (4 * i) 4 := by
      intro i
      simp only [window, List.drop_drop]
      congr 2
      ring
    rw [h1]
    simp only [Nat.succ_eq_add_one, h2]
    rw [ih (bs.drop 4) (by simp; omega), List.take_append_drop]

@[simp] theorem bufferBytes_length (b : Buffer) : (bufferBytes b).length = 64 := by
  simp [bufferBytes, List.length_flatMap]

theorem bufferOfBytes_toList (e : List Byte) :
    (bufferOfBytes e).toList =
      (List.range 16).map (fun i => BitVec.ofNat 32 (be (window e (4 * i) 4))) := by
  simp [bufferOfBytes, Vector.toList]

/-- A buffer filled from 64 bytes holds exactly those bytes (R49, R174). -/
theorem bufferBytes_bufferOfBytes (e : List Byte) (h : e.length = 64) :
    bufferBytes (bufferOfBytes e) = e := by
  unfold bufferBytes
  rw [bufferOfBytes_toList, List.flatMap_map]
  have h1 : ∀ i, (BitVec.ofNat 32 (be (window e (4 * i) 4))).toNat = be (window e (4 * i) 4) := by
    intro i
    rw [BitVec.toNat_ofNat]
    apply Nat.mod_eq_of_lt
    refine lt_of_lt_of_le (be_lt _) ?_
    have : (window e (4 * i) 4).length ≤ 4 := by simp [window]
    calc 256 ^ (window e (4 * i) 4).length ≤ 256 ^ 4 := Nat.pow_le_pow_right (by norm_num) this
      _ = 2 ^ 32 := by norm_num
  simp only [h1]
  exact flatMap_pieces e 16 (by omega)

end Sys2Proof.Machine
end

