-- ==== Sys2Proof/Laws/State.lean ====
section
/-! SUPPORT. One lemma per field of the block and per record update of it, true by rfl and tagged @[simp]. -/

namespace Sys2Proof.Machine

@[simp] theorem setDone_ctrl (b : Block) :
    (setDone b).ctrl = b.ctrl := rfl
@[simp] theorem setDone_status (b : Block) :
    (setDone b).status = { b.status with done := true } := rfl
@[simp] theorem setDone_irqEn (b : Block) :
    (setDone b).irqEn = b.irqEn := rfl
@[simp] theorem setDone_keyLen (b : Block) :
    (setDone b).keyLen = b.keyLen := rfl
@[simp] theorem setDone_counterHi (b : Block) :
    (setDone b).counterHi = b.counterHi := rfl
@[simp] theorem setDone_counterLo (b : Block) :
    (setDone b).counterLo = b.counterLo := rfl
@[simp] theorem setDone_truncOffset (b : Block) :
    (setDone b).truncOffset = b.truncOffset := rfl
@[simp] theorem setDone_truncValue (b : Block) :
    (setDone b).truncValue = b.truncValue := rfl
@[simp] theorem setDone_code (b : Block) :
    (setDone b).code = b.code := rfl
@[simp] theorem setDone_codeBcdLo (b : Block) :
    (setDone b).codeBcdLo = b.codeBcdLo := rfl
@[simp] theorem setDone_codeBcdHi (b : Block) :
    (setDone b).codeBcdHi = b.codeBcdHi := rfl
@[simp] theorem setDone_key (b : Block) :
    (setDone b).key = b.key := rfl
@[simp] theorem setDone_digest (b : Block) :
    (setDone b).digest = b.digest := rfl
@[simp] theorem setDone_pending (b : Block) :
    (setDone b).pending = b.pending := rfl
@[simp] theorem setDone_left (b : Block) :
    (setDone b).left = b.left := rfl

@[simp] theorem setWign_ctrl (b : Block) :
    (setWign b).ctrl = b.ctrl := rfl
@[simp] theorem setWign_status (b : Block) :
    (setWign b).status = { b.status with wign := true } := rfl
@[simp] theorem setWign_irqEn (b : Block) :
    (setWign b).irqEn = b.irqEn := rfl
@[simp] theorem setWign_keyLen (b : Block) :
    (setWign b).keyLen = b.keyLen := rfl
@[simp] theorem setWign_counterHi (b : Block) :
    (setWign b).counterHi = b.counterHi := rfl
@[simp] theorem setWign_counterLo (b : Block) :
    (setWign b).counterLo = b.counterLo := rfl
@[simp] theorem setWign_truncOffset (b : Block) :
    (setWign b).truncOffset = b.truncOffset := rfl
@[simp] theorem setWign_truncValue (b : Block) :
    (setWign b).truncValue = b.truncValue := rfl
@[simp] theorem setWign_code (b : Block) :
    (setWign b).code = b.code := rfl
@[simp] theorem setWign_codeBcdLo (b : Block) :
    (setWign b).codeBcdLo = b.codeBcdLo := rfl
@[simp] theorem setWign_codeBcdHi (b : Block) :
    (setWign b).codeBcdHi = b.codeBcdHi := rfl
@[simp] theorem setWign_key (b : Block) :
    (setWign b).key = b.key := rfl
@[simp] theorem setWign_digest (b : Block) :
    (setWign b).digest = b.digest := rfl
@[simp] theorem setWign_pending (b : Block) :
    (setWign b).pending = b.pending := rfl
@[simp] theorem setWign_left (b : Block) :
    (setWign b).left = b.left := rfl

@[simp] theorem clearCommandFlags_ctrl (b : Block) :
    (clearCommandFlags b).ctrl = b.ctrl := rfl
@[simp] theorem clearCommandFlags_status (b : Block) :
    (clearCommandFlags b).status = { b.status with done := false, err := false, errCode := 0 } := rfl
@[simp] theorem clearCommandFlags_irqEn (b : Block) :
    (clearCommandFlags b).irqEn = b.irqEn := rfl
@[simp] theorem clearCommandFlags_keyLen (b : Block) :
    (clearCommandFlags b).keyLen = b.keyLen := rfl
@[simp] theorem clearCommandFlags_counterHi (b : Block) :
    (clearCommandFlags b).counterHi = b.counterHi := rfl
@[simp] theorem clearCommandFlags_counterLo (b : Block) :
    (clearCommandFlags b).counterLo = b.counterLo := rfl
@[simp] theorem clearCommandFlags_truncOffset (b : Block) :
    (clearCommandFlags b).truncOffset = b.truncOffset := rfl
@[simp] theorem clearCommandFlags_truncValue (b : Block) :
    (clearCommandFlags b).truncValue = b.truncValue := rfl
@[simp] theorem clearCommandFlags_code (b : Block) :
    (clearCommandFlags b).code = b.code := rfl
@[simp] theorem clearCommandFlags_codeBcdLo (b : Block) :
    (clearCommandFlags b).codeBcdLo = b.codeBcdLo := rfl
@[simp] theorem clearCommandFlags_codeBcdHi (b : Block) :
    (clearCommandFlags b).codeBcdHi = b.codeBcdHi := rfl
@[simp] theorem clearCommandFlags_key (b : Block) :
    (clearCommandFlags b).key = b.key := rfl
@[simp] theorem clearCommandFlags_digest (b : Block) :
    (clearCommandFlags b).digest = b.digest := rfl
@[simp] theorem clearCommandFlags_pending (b : Block) :
    (clearCommandFlags b).pending = b.pending := rfl
@[simp] theorem clearCommandFlags_left (b : Block) :
    (clearCommandFlags b).left = b.left := rfl

@[simp] theorem reportError_ctrl (e : CmdError) (b : Block) :
    (reportError e b).ctrl = b.ctrl := rfl
@[simp] theorem reportError_status (e : CmdError) (b : Block) :
    (reportError e b).status = { b.status with done := true, err := true, errCode := errorCode e } := rfl
@[simp] theorem reportError_irqEn (e : CmdError) (b : Block) :
    (reportError e b).irqEn = b.irqEn := rfl
@[simp] theorem reportError_keyLen (e : CmdError) (b : Block) :
    (reportError e b).keyLen = b.keyLen := rfl
@[simp] theorem reportError_counterHi (e : CmdError) (b : Block) :
    (reportError e b).counterHi = b.counterHi := rfl
@[simp] theorem reportError_counterLo (e : CmdError) (b : Block) :
    (reportError e b).counterLo = b.counterLo := rfl
@[simp] theorem reportError_truncOffset (e : CmdError) (b : Block) :
    (reportError e b).truncOffset = b.truncOffset := rfl
@[simp] theorem reportError_truncValue (e : CmdError) (b : Block) :
    (reportError e b).truncValue = b.truncValue := rfl
@[simp] theorem reportError_code (e : CmdError) (b : Block) :
    (reportError e b).code = b.code := rfl
@[simp] theorem reportError_codeBcdLo (e : CmdError) (b : Block) :
    (reportError e b).codeBcdLo = b.codeBcdLo := rfl
@[simp] theorem reportError_codeBcdHi (e : CmdError) (b : Block) :
    (reportError e b).codeBcdHi = b.codeBcdHi := rfl
@[simp] theorem reportError_key (e : CmdError) (b : Block) :
    (reportError e b).key = b.key := rfl
@[simp] theorem reportError_digest (e : CmdError) (b : Block) :
    (reportError e b).digest = b.digest := rfl
@[simp] theorem reportError_pending (e : CmdError) (b : Block) :
    (reportError e b).pending = b.pending := rfl
@[simp] theorem reportError_left (e : CmdError) (b : Block) :
    (reportError e b).left = b.left := rfl

@[simp] theorem zeroiseKey_ctrl (b : Block) :
    (zeroiseKey b).ctrl = b.ctrl := rfl
@[simp] theorem zeroiseKey_status (b : Block) :
    (zeroiseKey b).status = b.status := rfl
@[simp] theorem zeroiseKey_irqEn (b : Block) :
    (zeroiseKey b).irqEn = b.irqEn := rfl
@[simp] theorem zeroiseKey_keyLen (b : Block) :
    (zeroiseKey b).keyLen = 0 := rfl
@[simp] theorem zeroiseKey_counterHi (b : Block) :
    (zeroiseKey b).counterHi = b.counterHi := rfl
@[simp] theorem zeroiseKey_counterLo (b : Block) :
    (zeroiseKey b).counterLo = b.counterLo := rfl
@[simp] theorem zeroiseKey_truncOffset (b : Block) :
    (zeroiseKey b).truncOffset = b.truncOffset := rfl
@[simp] theorem zeroiseKey_truncValue (b : Block) :
    (zeroiseKey b).truncValue = b.truncValue := rfl
@[simp] theorem zeroiseKey_code (b : Block) :
    (zeroiseKey b).code = b.code := rfl
@[simp] theorem zeroiseKey_codeBcdLo (b : Block) :
    (zeroiseKey b).codeBcdLo = b.codeBcdLo := rfl
@[simp] theorem zeroiseKey_codeBcdHi (b : Block) :
    (zeroiseKey b).codeBcdHi = b.codeBcdHi := rfl
@[simp] theorem zeroiseKey_key (b : Block) :
    (zeroiseKey b).key = zeroBuffer := rfl
@[simp] theorem zeroiseKey_digest (b : Block) :
    (zeroiseKey b).digest = b.digest := rfl
@[simp] theorem zeroiseKey_pending (b : Block) :
    (zeroiseKey b).pending = b.pending := rfl
@[simp] theorem zeroiseKey_left (b : Block) :
    (zeroiseKey b).left = b.left := rfl

@[simp] theorem zeroiseAll_ctrl (b : Block) :
    (zeroiseAll b).ctrl = b.ctrl := rfl
@[simp] theorem zeroiseAll_status (b : Block) :
    (zeroiseAll b).status = b.status := rfl
@[simp] theorem zeroiseAll_irqEn (b : Block) :
    (zeroiseAll b).irqEn = b.irqEn := rfl
@[simp] theorem zeroiseAll_keyLen (b : Block) :
    (zeroiseAll b).keyLen = 0 := rfl
@[simp] theorem zeroiseAll_counterHi (b : Block) :
    (zeroiseAll b).counterHi = b.counterHi := rfl
@[simp] theorem zeroiseAll_counterLo (b : Block) :
    (zeroiseAll b).counterLo = b.counterLo := rfl
@[simp] theorem zeroiseAll_truncOffset (b : Block) :
    (zeroiseAll b).truncOffset = 0 := rfl
@[simp] theorem zeroiseAll_truncValue (b : Block) :
    (zeroiseAll b).truncValue = 0 := rfl
@[simp] theorem zeroiseAll_code (b : Block) :
    (zeroiseAll b).code = 0 := rfl
@[simp] theorem zeroiseAll_codeBcdLo (b : Block) :
    (zeroiseAll b).codeBcdLo = 0 := rfl
@[simp] theorem zeroiseAll_codeBcdHi (b : Block) :
    (zeroiseAll b).codeBcdHi = 0 := rfl
@[simp] theorem zeroiseAll_key (b : Block) :
    (zeroiseAll b).key = zeroBuffer := rfl
@[simp] theorem zeroiseAll_digest (b : Block) :
    (zeroiseAll b).digest = zeroBuffer := rfl
@[simp] theorem zeroiseAll_pending (b : Block) :
    (zeroiseAll b).pending = b.pending := rfl
@[simp] theorem zeroiseAll_left (b : Block) :
    (zeroiseAll b).left = b.left := rfl

@[simp] theorem startCommand_ctrl (cfg : Config) (op : Op) (b : Block) :
    (startCommand cfg op b).ctrl = b.ctrl := rfl
@[simp] theorem startCommand_status (cfg : Config) (op : Op) (b : Block) :
    (startCommand cfg op b).status = b.status := rfl
@[simp] theorem startCommand_irqEn (cfg : Config) (op : Op) (b : Block) :
    (startCommand cfg op b).irqEn = b.irqEn := rfl
@[simp] theorem startCommand_keyLen (cfg : Config) (op : Op) (b : Block) :
    (startCommand cfg op b).keyLen = b.keyLen := rfl
@[simp] theorem startCommand_counterHi (cfg : Config) (op : Op) (b : Block) :
    (startCommand cfg op b).counterHi = b.counterHi := rfl
@[simp] theorem startCommand_counterLo (cfg : Config) (op : Op) (b : Block) :
    (startCommand cfg op b).counterLo = b.counterLo := rfl
@[simp] theorem startCommand_truncOffset (cfg : Config) (op : Op) (b : Block) :
    (startCommand cfg op b).truncOffset = b.truncOffset := rfl
@[simp] theorem startCommand_truncValue (cfg : Config) (op : Op) (b : Block) :
    (startCommand cfg op b).truncValue = b.truncValue := rfl
@[simp] theorem startCommand_code (cfg : Config) (op : Op) (b : Block) :
    (startCommand cfg op b).code = b.code := rfl
@[simp] theorem startCommand_codeBcdLo (cfg : Config) (op : Op) (b : Block) :
    (startCommand cfg op b).codeBcdLo = b.codeBcdLo := rfl
@[simp] theorem startCommand_codeBcdHi (cfg : Config) (op : Op) (b : Block) :
    (startCommand cfg op b).codeBcdHi = b.codeBcdHi := rfl
@[simp] theorem startCommand_key (cfg : Config) (op : Op) (b : Block) :
    (startCommand cfg op b).key = b.key := rfl
@[simp] theorem startCommand_digest (cfg : Config) (op : Op) (b : Block) :
    (startCommand cfg op b).digest = b.digest := rfl
@[simp] theorem startCommand_pending (cfg : Config) (op : Op) (b : Block) :
    (startCommand cfg op b).pending = some op := rfl
@[simp] theorem startCommand_left (cfg : Config) (op : Op) (b : Block) :
    (startCommand cfg op b).left = latency cfg op (selectedAlg b) := rfl

@[simp] theorem writeDigest_ctrl (d : List Byte) (b : Block) :
    (writeDigest d b).ctrl = b.ctrl := rfl
@[simp] theorem writeDigest_status (d : List Byte) (b : Block) :
    (writeDigest d b).status = b.status := rfl
@[simp] theorem writeDigest_irqEn (d : List Byte) (b : Block) :
    (writeDigest d b).irqEn = b.irqEn := rfl
@[simp] theorem writeDigest_keyLen (d : List Byte) (b : Block) :
    (writeDigest d b).keyLen = b.keyLen := rfl
@[simp] theorem writeDigest_counterHi (d : List Byte) (b : Block) :
    (writeDigest d b).counterHi = b.counterHi := rfl
@[simp] theorem writeDigest_counterLo (d : List Byte) (b : Block) :
    (writeDigest d b).counterLo = b.counterLo := rfl
@[simp] theorem writeDigest_truncOffset (d : List Byte) (b : Block) :
    (writeDigest d b).truncOffset = b.truncOffset := rfl
@[simp] theorem writeDigest_truncValue (d : List Byte) (b : Block) :
    (writeDigest d b).truncValue = b.truncValue := rfl
@[simp] theorem writeDigest_code (d : List Byte) (b : Block) :
    (writeDigest d b).code = b.code := rfl
@[simp] theorem writeDigest_codeBcdLo (d : List Byte) (b : Block) :
    (writeDigest d b).codeBcdLo = b.codeBcdLo := rfl
@[simp] theorem writeDigest_codeBcdHi (d : List Byte) (b : Block) :
    (writeDigest d b).codeBcdHi = b.codeBcdHi := rfl
@[simp] theorem writeDigest_key (d : List Byte) (b : Block) :
    (writeDigest d b).key = b.key := rfl
@[simp] theorem writeDigest_digest (d : List Byte) (b : Block) :
    (writeDigest d b).digest = bufferOfBytes (d ++ zeroBytes (64 - d.length)) := rfl
@[simp] theorem writeDigest_pending (d : List Byte) (b : Block) :
    (writeDigest d b).pending = b.pending := rfl
@[simp] theorem writeDigest_left (d : List Byte) (b : Block) :
    (writeDigest d b).left = b.left := rfl

@[simp] theorem writeTruncation_ctrl (d : List Byte) (n : Nat) (b : Block) :
    (writeTruncation d n b).ctrl = b.ctrl := rfl
@[simp] theorem writeTruncation_status (d : List Byte) (n : Nat) (b : Block) :
    (writeTruncation d n b).status = b.status := rfl
@[simp] theorem writeTruncation_irqEn (d : List Byte) (n : Nat) (b : Block) :
    (writeTruncation d n b).irqEn = b.irqEn := rfl
@[simp] theorem writeTruncation_keyLen (d : List Byte) (n : Nat) (b : Block) :
    (writeTruncation d n b).keyLen = b.keyLen := rfl
@[simp] theorem writeTruncation_counterHi (d : List Byte) (n : Nat) (b : Block) :
    (writeTruncation d n b).counterHi = b.counterHi := rfl
@[simp] theorem writeTruncation_counterLo (d : List Byte) (n : Nat) (b : Block) :
    (writeTruncation d n b).counterLo = b.counterLo := rfl
@[simp] theorem writeTruncation_truncOffset (d : List Byte) (n : Nat) (b : Block) :
    (writeTruncation d n b).truncOffset = BitVec.ofNat 32 (dtOffset d) := rfl
@[simp] theorem writeTruncation_truncValue (d : List Byte) (n : Nat) (b : Block) :
    (writeTruncation d n b).truncValue = BitVec.ofNat 32 (dtValue d) := rfl
@[simp] theorem writeTruncation_code (d : List Byte) (n : Nat) (b : Block) :
    (writeTruncation d n b).code = BitVec.ofNat 32 (dtCode d n) := rfl
@[simp] theorem writeTruncation_codeBcdLo (d : List Byte) (n : Nat) (b : Block) :
    (writeTruncation d n b).codeBcdLo = BitVec.ofNat 32 (bcdLo (dtCode d n)) := rfl
@[simp] theorem writeTruncation_codeBcdHi (d : List Byte) (n : Nat) (b : Block) :
    (writeTruncation d n b).codeBcdHi = BitVec.ofNat 32 (bcdHi (dtCode d n)) := rfl
@[simp] theorem writeTruncation_key (d : List Byte) (n : Nat) (b : Block) :
    (writeTruncation d n b).key = b.key := rfl
@[simp] theorem writeTruncation_digest (d : List Byte) (n : Nat) (b : Block) :
    (writeTruncation d n b).digest = b.digest := rfl
@[simp] theorem writeTruncation_pending (d : List Byte) (n : Nat) (b : Block) :
    (writeTruncation d n b).pending = b.pending := rfl
@[simp] theorem writeTruncation_left (d : List Byte) (n : Nat) (b : Block) :
    (writeTruncation d n b).left = b.left := rfl

@[simp] theorem statusW1C_ctrl (v : Word) (b : Block) : (statusW1C v b).ctrl = b.ctrl := rfl
@[simp] theorem statusW1C_irqEn (v : Word) (b : Block) : (statusW1C v b).irqEn = b.irqEn := rfl
@[simp] theorem statusW1C_keyLen (v : Word) (b : Block) : (statusW1C v b).keyLen = b.keyLen := rfl
@[simp] theorem statusW1C_counterHi (v : Word) (b : Block) : (statusW1C v b).counterHi = b.counterHi := rfl
@[simp] theorem statusW1C_counterLo (v : Word) (b : Block) : (statusW1C v b).counterLo = b.counterLo := rfl
@[simp] theorem statusW1C_truncOffset (v : Word) (b : Block) : (statusW1C v b).truncOffset = b.truncOffset := rfl
@[simp] theorem statusW1C_truncValue (v : Word) (b : Block) : (statusW1C v b).truncValue = b.truncValue := rfl
@[simp] theorem statusW1C_code (v : Word) (b : Block) : (statusW1C v b).code = b.code := rfl
@[simp] theorem statusW1C_codeBcdLo (v : Word) (b : Block) : (statusW1C v b).codeBcdLo = b.codeBcdLo := rfl
@[simp] theorem statusW1C_codeBcdHi (v : Word) (b : Block) : (statusW1C v b).codeBcdHi = b.codeBcdHi := rfl
@[simp] theorem statusW1C_key (v : Word) (b : Block) : (statusW1C v b).key = b.key := rfl
@[simp] theorem statusW1C_digest (v : Word) (b : Block) : (statusW1C v b).digest = b.digest := rfl
@[simp] theorem statusW1C_pending (v : Word) (b : Block) : (statusW1C v b).pending = b.pending := rfl
@[simp] theorem statusW1C_left (v : Word) (b : Block) : (statusW1C v b).left = b.left := rfl

@[simp] theorem endKeyedCommand_ctrl (b : Block) : (endKeyedCommand b).ctrl = b.ctrl := by
  unfold endKeyedCommand; split <;> rfl
@[simp] theorem endKeyedCommand_status (b : Block) : (endKeyedCommand b).status = b.status := by
  unfold endKeyedCommand; split <;> rfl
@[simp] theorem endKeyedCommand_irqEn (b : Block) : (endKeyedCommand b).irqEn = b.irqEn := by
  unfold endKeyedCommand; split <;> rfl
@[simp] theorem endKeyedCommand_keyLen (b : Block) :
    (endKeyedCommand b).keyLen = if ctrlKeepKey b then b.keyLen else 0 := by
  unfold endKeyedCommand; split <;> rfl
@[simp] theorem endKeyedCommand_counterHi (b : Block) : (endKeyedCommand b).counterHi = b.counterHi := by
  unfold endKeyedCommand; split <;> rfl
@[simp] theorem endKeyedCommand_counterLo (b : Block) : (endKeyedCommand b).counterLo = b.counterLo := by
  unfold endKeyedCommand; split <;> rfl
@[simp] theorem endKeyedCommand_truncOffset (b : Block) : (endKeyedCommand b).truncOffset = b.truncOffset := by
  unfold endKeyedCommand; split <;> rfl
@[simp] theorem endKeyedCommand_truncValue (b : Block) : (endKeyedCommand b).truncValue = b.truncValue := by
  unfold endKeyedCommand; split <;> rfl
@[simp] theorem endKeyedCommand_code (b : Block) : (endKeyedCommand b).code = b.code := by
  unfold endKeyedCommand; split <;> rfl
@[simp] theorem endKeyedCommand_codeBcdLo (b : Block) : (endKeyedCommand b).codeBcdLo = b.codeBcdLo := by
  unfold endKeyedCommand; split <;> rfl
@[simp] theorem endKeyedCommand_codeBcdHi (b : Block) : (endKeyedCommand b).codeBcdHi = b.codeBcdHi := by
  unfold endKeyedCommand; split <;> rfl
@[simp] theorem endKeyedCommand_key (b : Block) :
    (endKeyedCommand b).key = if ctrlKeepKey b then b.key else zeroBuffer := by
  unfold endKeyedCommand; split <;> rfl
@[simp] theorem endKeyedCommand_digest (b : Block) : (endKeyedCommand b).digest = b.digest := by
  unfold endKeyedCommand; split <;> rfl
@[simp] theorem endKeyedCommand_pending (b : Block) : (endKeyedCommand b).pending = b.pending := by
  unfold endKeyedCommand; split <;> rfl
@[simp] theorem endKeyedCommand_left (b : Block) : (endKeyedCommand b).left = b.left := by
  unfold endKeyedCommand; split <;> rfl

end Sys2Proof.Machine
end

