-- ==== Sys2Proof/Laws/Hash.lean ====
section
/-! SUPPORT. Lengths of the hash functions' results, and what a written digest reads back as. -/

namespace Sys2Proof.Machine

@[simp] theorem sha1_length (m : List Byte) : (sha1 m).length = 20 := by
  simp [sha1]

@[simp] theorem sha256_length (m : List Byte) : (sha256 m).length = 32 := by
  simp [sha256, hash8Words]

@[simp] theorem sha512_length (m : List Byte) : (sha512 m).length = 64 := by
  simp [sha512, hash8Words]

/-- A hash has the length of its algorithm (R170). -/
@[simp] theorem hash_length (alg : Alg) (m : List Byte) : (hash alg m).length = digestLength alg := by
  cases alg <;> simp [hash, digestLength]

@[simp] theorem hmac_length (alg : Alg) (k m : List Byte) :
    (hmac alg k m).length = digestLength alg := by
  simp [hmac]

@[simp] theorem hmacOfOperands_length (b : Block) :
    (hmacOfOperands b).length = digestLength (selectedAlg b) := by
  simp [hmacOfOperands]

theorem digestLength_le (alg : Alg) : 20 ≤ digestLength alg ∧ digestLength alg ≤ 64 := by
  cases alg <;> simp [digestLength]

/-- The bytes of the digest buffer after `write_digest` (R174). -/
theorem bufferBytes_writeDigest (d : List Byte) (b : Block) (h : d.length ≤ 64) :
    bufferBytes (writeDigest d b).digest = d ++ zeroBytes (64 - d.length) := by
  rw [writeDigest_digest]
  exact bufferBytes_bufferOfBytes _ (by simp; omega)

/-- The digest a TRUNC would read after `write_digest` of a digest of the selected length is that digest
(R174, R241). -/
theorem digestOperand_writeDigest (d : List Byte) (b : Block)
    (h : d.length = digestLength (selectedAlg b)) : digestOperand (writeDigest d b) = d := by
  have hl := digestLength_le (selectedAlg b)
  have hs : selectedAlg (writeDigest d b) = selectedAlg b := rfl
  unfold digestOperand
  rw [bufferBytes_writeDigest d b (by omega), hs, ← h]
  simp [window]

end Sys2Proof.Machine
end

