-- ==== Sys2Proof/Laws/HostProgram.lean ====
section
/-! SUPPORT. The parts of a host program's run: what each operation on it leaves alone, and turns one after another. -/

namespace Sys2Proof.Machine

@[simp] theorem recordLine_program (l : HostLine) (r : HostRun) :
    (recordLine l r).program = r.program := rfl
@[simp] theorem recordLine_place (l : HostLine) (r : HostRun) :
    (recordLine l r).place = r.place := rfl
@[simp] theorem recordLine_vars (l : HostLine) (r : HostRun) :
    (recordLine l r).vars = r.vars := rfl
@[simp] theorem recordLine_machine (l : HostLine) (r : HostRun) :
    (recordLine l r).machine = r.machine := rfl
@[simp] theorem recordLine_status (l : HostLine) (r : HostRun) :
    (recordLine l r).status = r.status := rfl

@[simp] theorem nextLine_program (r : HostRun) : (nextLine r).program = r.program := rfl
@[simp] theorem nextLine_place (r : HostRun) : (nextLine r).place = r.place + 1 := rfl
@[simp] theorem nextLine_vars (r : HostRun) : (nextLine r).vars = r.vars := rfl
@[simp] theorem nextLine_machine (r : HostRun) : (nextLine r).machine = r.machine := rfl
@[simp] theorem nextLine_status (r : HostRun) : (nextLine r).status = r.status := rfl
@[simp] theorem nextLine_made (r : HostRun) : (nextLine r).made = r.made := rfl

/-- A turn against the block changes nothing of the run but the machine and how the run stands. -/
theorem agentTurn_frame (e : Event) (r : HostRun) :
    (agentTurn e r).program = r.program ∧ (agentTurn e r).place = r.place ∧
    (agentTurn e r).vars = r.vars ∧ (agentTurn e r).made = r.made := by
  unfold agentTurn
  split <;> exact ⟨rfl, rfl, rfl, rfl⟩

/-- A turn that answers a next state. -/
theorem agentTurn_next (e : Event) (r : HostRun) (m : State)
    (h : step { r.machine with inbox := [e] } = .next m) : agentTurn e r = { r with machine := m } := by
  unfold agentTurn
  rw [h]

/-- No turn against the block ends a run. -/
theorem agentTurn_status (e : Event) (r : HostRun) :
    (agentTurn e r).status = r.status ∨ (agentTurn e r).status = .faulted := by
  unfold agentTurn
  split
  · exact .inl rfl
  · exact .inr rfl
  · exact .inl rfl

theorem runTurns_append (ts us : List Turn) (r : HostRun) :
    runTurns (ts ++ us) r = runTurns us (runTurns ts r) := by
  induction ts generalizing r with
  | nil => rfl
  | cons t ts ih => exact ih (runTurn t r)

end Sys2Proof.Machine
end

