-- ==== Sys2Proof/Laws/Ops.lean ====
section
/-! SUPPORT. What the shared operations of the command cycle can do, once each. -/

namespace Sys2Proof.Machine

@[simp] theorem busy_eq_false (b : Block) : busy b = false ↔ b.pending = none := by
  cases h : b.pending <;> simp [busy, h]

@[simp] theorem busy_eq_true (b : Block) : busy b = true ↔ ∃ op, b.pending = some op := by
  cases h : b.pending <;> simp [busy, h]

theorem mem_registers (r : Reg) : r ∈ registers := by
  cases r with
  | key i => revert i; decide
  | digest i => revert i; decide
  | _ => decide

theorem offset_injective : ∀ r ∈ registers, ∀ r' ∈ registers, r.offset = r'.offset → r = r' := by
  decide

theorem offset_lt (r : Reg) : r.offset < 4096 ∧ r.offset % 4 = 0 := by
  cases r <;> simp [Reg.offset] <;> omega

/-- The register map finds a register exactly at its own offset (R30). -/
theorem regAt_eq_some_iff (off : Nat) (r : Reg) : regAt off = some r ↔ r.offset = off := by
  constructor
  · intro h
    simpa using List.find?_some h
  · rintro rfl
    unfold regAt
    cases h : registers.find? (fun r' => r'.offset == r.offset) with
    | none => simpa using List.find?_eq_none.1 h r (mem_registers r)
    | some r' =>
      have h1 : r'.offset = r.offset := by simpa using List.find?_some h
      rw [offset_injective r' (mem_registers r') r (mem_registers r) h1]

@[simp] theorem regAt_offset (r : Reg) : regAt r.offset = some r :=
  (regAt_eq_some_iff _ r).2 rfl

/-- An offset that is no register's is reserved (R48). -/
theorem regAt_eq_none (off : Nat) (h : ∀ r : Reg, r.offset ≠ off) : regAt off = none := by
  cases hr : regAt off with
  | none => rfl
  | some r => exact absurd ((regAt_eq_some_iff off r).1 hr) (h r)

/-- A CMD write while BUSY only sets WIGN (R254). -/
theorem commandWrite_busy (f : Block → Block) (s : State) (h : busy s.block = true) :
    commandWrite f s = .next { s with block := setWign s.block } := by
  simp [commandWrite, h]

/-- A CMD write while idle is acceptance (R255). -/
theorem commandWrite_idle (f : Block → Block) (s : State) (h : busy s.block = false) :
    commandWrite f s = .next { s with block := f s.block } := by
  simp [commandWrite, h]

/-- The checks of a command (R255). -/
def checksOf : Op → Config → Block → Option CmdError
  | .hmac => hmacChecks
  | .trunc => truncChecks
  | .hotp => hotpChecks

/-- HMAC, TRUNC and HOTP have one shape: a CMD write that accepts with the command's own checks (R255). -/
theorem exec_commandOf (op : Op) (s : State) :
    exec (commandOf op) s =
      commandWrite (fun b => acceptCommand s.cfg op (checksOf op s.cfg b) b) s := by
  cases op <;> rfl

theorem algError_none (cfg : Config) (b : Block) :
    algError cfg b = none ↔ algLegal cfg (ctrlAlg b) = true := by
  unfold algError; split <;> simp_all

theorem secretError_none (b : Block) : secretError b = none ↔ 1 ≤ b.keyLen.toNat := by
  unfold secretError; split <;> simp <;> omega

theorem keyLengthError_none (b : Block) : keyLengthError b = none ↔ b.keyLen.toNat ≤ 64 := by
  unfold keyLengthError; split <;> simp <;> omega

theorem digitsError_none (b : Block) :
    digitsError b = none ↔ 1 ≤ ctrlDigits b ∧ ctrlDigits b ≤ 10 := by
  unfold digitsError; split <;> simp <;> omega

/-- The checks find nothing exactly when the command passes (R255). -/
theorem checksOf_none (cfg : Config) (op : Op) (b : Block) :
    checksOf op cfg b = none ↔ Passes cfg op b := by
  have orElse_none : ∀ x y : Option CmdError, (x <|> y) = none ↔ x = none ∧ y = none := by
    intro x y; cases x <;> simp
  cases op <;>
    simp only [checksOf, hmacChecks, truncChecks, hotpChecks, orElse_none, algError_none,
      secretError_none, keyLengthError_none, digitsError_none]
  · exact ⟨fun h => ⟨h.1, fun _ => h.2, fun h' => absurd h' (by decide)⟩,
      fun h => ⟨h.alg, h.key rfl⟩⟩
  · exact ⟨fun h => ⟨h.1, fun h' => absurd h' (by decide), fun _ => h.2⟩,
      fun h => ⟨h.alg, h.digits rfl⟩⟩
  · exact ⟨fun h => ⟨h.1, fun _ => ⟨h.2.1, h.2.2.1⟩, fun _ => h.2.2.2⟩,
      fun h => ⟨h.alg, (h.key rfl).1, (h.key rfl).2, h.digits rfl⟩⟩

/-- The state right after the acceptance of a command that passed its checks (R255). -/
theorem exec_accepts (op : Op) (s : State) (hi : busy s.block = false)
    (hp : Passes s.cfg op s.block) :
    exec (commandOf op) s = .next { s with block := { s.block with
      status := runningStatus s.block
      pending := some op
      left := latency s.cfg op (selectedAlg s.block) } } := by
  rw [exec_commandOf, commandWrite_idle _ _ hi, (checksOf_none _ _ _).2 hp]
  rfl

/-- n + 1 CORE steps are n CORE steps and one more. -/
theorem coreSteps_succ (n : Nat) (b : Block) : coreSteps (n + 1) b = coreStep (coreSteps n b) := by
  induction n generalizing b with
  | zero => rfl
  | succ n ih => rw [coreSteps, ih, coreSteps]

/-- The internal CORE steps of a pending command only count down (R257). -/
theorem coreSteps_internal (op : Op) (n : Nat) (b : Block) (hp : b.pending = some op)
    (hn : n < b.left) : coreSteps n b = { b with left := b.left - n } := by
  induction n with
  | zero => rfl
  | succ n ih =>
    rw [coreSteps_succ, ih (by omega)]
    have h1 : ¬ b.left - n ≤ 1 := by omega
    simp [coreStep, hp, h1]
    omega

/-- The last CORE step of a pending command completes it (R257, R320). -/
theorem coreSteps_completes (op : Op) (b : Block) (hp : b.pending = some op) (hl : 1 ≤ b.left) :
    coreSteps b.left b = complete op { b with left := 1 } := by
  obtain ⟨n, hn⟩ : ∃ n, b.left = n + 1 := ⟨b.left - 1, by omega⟩
  rw [hn, coreSteps_succ, coreSteps_internal op n b hp (by omega)]
  have h1 : b.left - n = 1 := by omega
  simp [coreStep, hp, h1]

/-- With PENDING = NONE the CORE has no step (R257). -/
theorem coreSteps_idle (n : Nat) (b : Block) (hp : b.pending = none) : coreSteps n b = b := by
  induction n with
  | zero => rfl
  | succ n ih => rw [coreSteps_succ, ih]; simp [coreStep, hp]

theorem latency_pos (cfg : Config) (op : Op) (alg : Alg) : 1 ≤ latency cfg op alg := by
  cases alg <;> simp [latency]

/-- What the completion of HMAC leaves (R173, R257, R258). -/
theorem complete_hmac (b : Block) :
    complete .hmac b = { b with
      digest := (writeDigest (hmacOfOperands b) b).digest
      key := if ctrlKeepKey b then b.key else zeroBuffer
      keyLen := if ctrlKeepKey b then b.keyLen else 0
      status := { b.status with done := true }
      pending := none
      left := 0 } := by
  have h : ctrlKeepKey (writeDigest (hmacOfOperands b) b) = ctrlKeepKey b := rfl
  simp only [complete, completeResults, completeHmac, endKeyedCommand, h]
  cases ctrlKeepKey b <;> rfl

/-- What the completion of TRUNC leaves (R154, R257). -/
theorem complete_trunc (b : Block) :
    complete .trunc b = { writeTruncation (digestOperand b) (ctrlDigits b) b with
      status := { b.status with done := true }
      pending := none
      left := 0 } := rfl

/-- What the completion of HOTP leaves (R240, R257, R258). -/
theorem complete_hotp (b : Block) :
    complete .hotp b = { writeTruncation (hmacOfOperands b) (ctrlDigits b) b with
      digest := (writeDigest (hmacOfOperands b) b).digest
      key := if ctrlKeepKey b then b.key else zeroBuffer
      keyLen := if ctrlKeepKey b then b.keyLen else 0
      status := { b.status with done := true }
      pending := none
      left := 0 } := by
  have h : ctrlKeepKey (writeTruncation (hmacOfOperands b) (ctrlDigits b)
    (writeDigest (hmacOfOperands b) b)) = ctrlKeepKey b := rfl
  simp only [complete, completeResults, completeHotp, endKeyedCommand, h]
  cases ctrlKeepKey b <;> rfl

/-- The whole run of an accepted command: LAT(op, alg) CORE steps after acceptance it completes (R257, R320). -/
theorem coreSteps_of_accepted (cfg : Config) (op : Op) (b : Block) :
    coreSteps (latency cfg op (selectedAlg b)) { b with
        status := runningStatus b
        pending := some op
        left := latency cfg op (selectedAlg b) } =
      complete op { b with status := runningStatus b, pending := some op, left := 1 } :=
  coreSteps_completes op { b with
    status := runningStatus b
    pending := some op
    left := latency cfg op (selectedAlg b) } rfl (latency_pos cfg op (selectedAlg b))

/-- The block in which an accepted command's completion step finds it. -/
def aboutToComplete (op : Op) (b : Block) : Block :=
  { b with status := runningStatus b, pending := some op, left := 1 }

/-- A command that is idle and passes its checks is accepted, and LAT(op, alg) CORE steps later it completes
(R255, R257, R320). -/
theorem exec_then_completes (op : Op) (s : State) (hi : busy s.block = false)
    (hp : Passes s.cfg op s.block) :
    ∃ t, exec (commandOf op) s = .next t ∧ t.cfg = s.cfg ∧
      coreSteps (latency s.cfg op (selectedAlg s.block)) t.block =
        complete op (aboutToComplete op s.block) :=
  ⟨_, exec_accepts op s hi hp, rfl, coreSteps_of_accepted s.cfg op s.block⟩

/-! ### What each operation leaves alone -/

/-- The cases of one CORE step (R257). -/
theorem coreStep_cases (b : Block) :
    (b.pending = none ∧ coreStep b = b) ∨
    (∃ op, b.pending = some op ∧ 1 < b.left ∧ coreStep b = { b with left := b.left - 1 }) ∨
    (∃ op, b.pending = some op ∧ b.left ≤ 1 ∧ coreStep b = complete op b) := by
  unfold coreStep
  cases h : b.pending with
  | none => simp
  | some op => by_cases hl : b.left ≤ 1 <;> simp [hl]; omega

theorem complete_status (op : Op) (b : Block) :
    (complete op b).status = { b.status with done := true } := by
  cases op <;> simp [complete, completeResults, completeHmac, completeTrunc, completeHotp]

@[simp] theorem complete_ctrl (op : Op) (b : Block) : (complete op b).ctrl = b.ctrl := by
  cases op <;> simp [complete, completeResults, completeHmac, completeTrunc, completeHotp]

@[simp] theorem complete_irqEn (op : Op) (b : Block) : (complete op b).irqEn = b.irqEn := by
  cases op <;> simp [complete, completeResults, completeHmac, completeTrunc, completeHotp]

@[simp] theorem complete_counterHi (op : Op) (b : Block) :
    (complete op b).counterHi = b.counterHi := by
  cases op <;> simp [complete, completeResults, completeHmac, completeTrunc, completeHotp]

@[simp] theorem complete_counterLo (op : Op) (b : Block) :
    (complete op b).counterLo = b.counterLo := by
  cases op <;> simp [complete, completeResults, completeHmac, completeTrunc, completeHotp]

@[simp] theorem complete_pending (op : Op) (b : Block) : (complete op b).pending = none := by
  cases op <;> rfl

/-- A write of a register while BUSY sets WIGN, or is a store to STATUS, IRQ_EN or a read-only register (R254). -/
theorem writeRegister_busy (r : Reg) (v : Word) (b : Block) (h : busy b = true) :
    writeRegister r v b = setWign b ∨
    (writeRegister r v b = storeRegister r v b ∧ idleOnly r = false) := by
  unfold writeRegister
  cases hr : idleOnly r <;> simp [h]

/-- Error completion's report (R256). -/
theorem endInError_status (k : Bool) (e : CmdError) (b : Block) :
    (endInError k e b).status = { b.status with done := true, err := true, errCode := errorCode e } := by
  unfold endInError
  split
  · rw [endKeyedCommand_status]; rfl
  · rfl

/-- Acceptance changes no operand but the key, and no result (R255, R256). -/
theorem acceptCommand_frame (cfg : Config) (op : Op) (e : Option CmdError) (b : Block) :
    (acceptCommand cfg op e b).ctrl = b.ctrl ∧ (acceptCommand cfg op e b).irqEn = b.irqEn ∧
    (acceptCommand cfg op e b).counterHi = b.counterHi ∧
    (acceptCommand cfg op e b).counterLo = b.counterLo ∧
    (acceptCommand cfg op e b).digest = b.digest ∧
    (acceptCommand cfg op e b).truncOffset = b.truncOffset ∧
    (acceptCommand cfg op e b).truncValue = b.truncValue ∧
    (acceptCommand cfg op e b).code = b.code ∧
    (acceptCommand cfg op e b).codeBcdLo = b.codeBcdLo ∧
    (acceptCommand cfg op e b).codeBcdHi = b.codeBcdHi ∧
    (acceptCommand cfg op e b).status.wign = b.status.wign := by
  unfold acceptCommand endInError
  cases e with
  | none => simp
  | some e => cases keyed op <;> simp

end Sys2Proof.Machine
end

