-- ==== Sys2Proof/Laws/PerInstr.lean ====
section
/-! SUPPORT. Facts about each command as syntax. -/

namespace Sys2Proof.Laws.CommandWord

/-- A command is well formed, and so is its word: its reserved field is zero and its opcode is one the spec
defines (R121, R122). -/
def Statement (i : Instr) : Prop :=
  i.wellFormed = true ∧ commandWordWellFormed (encode i) = true

theorem hmac : Statement .hmac := ⟨by decide, by decide⟩

theorem trunc : Statement .trunc := ⟨by decide, by decide⟩

theorem hotp : Statement .hotp := ⟨by decide, by decide⟩

theorem zeroize : Statement .zeroize := ⟨by decide, by decide⟩

end Sys2Proof.Laws.CommandWord
end

