-- ==== Sys2Proof/Laws/Step.lean ====
section
/-! SUPPORT. What one step can do: an equation for each turn, and the cases of a step that answers a next state. -/

namespace Sys2Proof.Machine

/-- What acceptance of a command does to an idle block (R255). -/
def acceptOf : Instr → Config → Block → Block
  | .hmac, cfg, b => acceptCommand cfg .hmac (hmacChecks cfg b) b
  | .trunc, cfg, b => acceptCommand cfg .trunc (truncChecks cfg b) b
  | .hotp, cfg, b => acceptCommand cfg .hotp (hotpChecks cfg b) b
  | .zeroize, _, b => setDone (zeroiseAll (clearCommandFlags b))

/-- What acceptance of a word does to an idle block (R251, R255). -/
def acceptWord (cfg : Config) (w : Word) (b : Block) : Block :=
  match decode w with
  | .ok i => acceptOf i cfg b
  | .error _ => endInError false .illegalCommand (clearCommandFlags b)

/-- Every command is a CMD write that accepts (R255). -/
theorem exec_eq_commandWrite (i : Instr) (s : State) :
    exec i s = commandWrite (acceptOf i s.cfg) s := by
  cases i <;> rfl

/-- A write to CMD, in every case (R251, R254, R255). -/
theorem writeCmd_eq (w : Word) (s : State) :
    writeCmd w s = .next { s with
      block := if busy s.block then setWign s.block else acceptWord s.cfg w s.block } := by
  unfold writeCmd
  cases h : decode w with
  | ok i => simp only [exec_eq_commandWrite, commandWrite, acceptWord, h]
  | error e => simp only [refuseIllegal, commandWrite, acceptWord, h]

theorem inWindow_iff (cfg : Config) (addr : Nat) :
    inWindow cfg addr = true ↔ otpBase cfg ≤ addr ∧ addr < otpBase cfg + 4096 := by
  simp [inWindow]

theorem accessLegal_iff (off width : Nat) :
    accessLegal off width = true ↔ width = 4 ∧ off % 4 = 0 := by
  simp [accessLegal]

@[simp] theorem inWindow_base (cfg : Config) (off : Nat) :
    inWindow cfg (otpBase cfg + off) = true ↔ off < 4096 := by
  rw [inWindow_iff]; omega

/-- The CORE's turn (R257). -/
theorem step_core (s : State) (rest : List Event)
    (h : s.inbox = .core :: rest ∨ (s.inbox = [] ∧ rest = [])) :
    step s = .next { s with inbox := rest, block := coreStep s.block } := by
  obtain h | ⟨h, rfl⟩ := h
  · simp [step, h, agentStep]
  · cases s; simp_all [step, agentStep]

/-- The RESET turn (R300). -/
theorem step_reset (s : State) (rest : List Event) (h : s.inbox = .reset :: rest) :
    step s = .next { cfg := s.cfg, block := Block.reset, inbox := rest, reply := .none } := by
  simp [step, h, agentStep, resetStep]

/-- The HOST's turn (R15). -/
theorem step_host (s : State) (rest : List Event) (a : Access) (h : s.inbox = .host a :: rest) :
    step s = hostStep a { s with inbox := rest } := by
  simp [step, h, agentStep]

/-- A legal read (R252). -/
theorem hostStep_read (s : State) (off : Nat) (h1 : off < 4096) (h2 : off % 4 = 0) :
    hostStep (.read (otpBase s.cfg + off) 4) s =
      .next { s with reply := .data (busRead s.cfg s.block off) } := by
  simp [hostStep, (inWindow_base s.cfg off).2 h1, accessLegal, h2]

/-- A legal write (R253). -/
theorem hostStep_write (s : State) (off : Nat) (v : Word) (h1 : off < 4096) (h2 : off % 4 = 0) :
    hostStep (.write (otpBase s.cfg + off) 4 v) s = busWrite off v { s with reply := .written } := by
  simp [hostStep, (inWindow_base s.cfg off).2 h1, accessLegal, h2]

/-- A write, by the register at its offset (R253). -/
theorem busWrite_eq (off : Nat) (v : Word) (s : State) :
    busWrite off v s = .next { s with
      block := match regAt off with
        | none => s.block
        | some .cmd => if busy s.block then setWign s.block else acceptWord s.cfg v s.block
        | some r => writeRegister r v s.block } := by
  unfold busWrite
  cases h : regAt off with
  | none => rfl
  | some r => cases r <;> simp [writeCmd_eq]

/-- Everything a step can do when it answers a next state (R15, R91, R252 to R257, R301): it changes the block
by a CORE step, by RESET, not at all, by a register write or by the acceptance of a command word. -/
theorem step_cases (s t : State) (h : step s = .next t) :
    t.cfg = s.cfg ∧ t.inbox = s.inbox.tail ∧
    ((s.inbox = [] ∨ s.inbox.head? = some .core) ∧ t.block = coreStep s.block ∧ t.reply = s.reply ∨
     s.inbox.head? = some .reset ∧ t.block = Block.reset ∧ t.reply = .none ∨
     (∃ a, s.inbox.head? = some (.host a)) ∧ t.block = s.block ∨
     (∃ off v r, s.inbox.head? = some (.host (.write (otpBase s.cfg + off) 4 v)) ∧ off < 4096 ∧
        off % 4 = 0 ∧ regAt off = some r ∧ r ≠ .cmd ∧ t.block = writeRegister r v s.block ∧
        t.reply = .written) ∨
     (∃ off v, s.inbox.head? = some (.host (.write (otpBase s.cfg + off) 4 v)) ∧ off < 4096 ∧
        off % 4 = 0 ∧ regAt off = some .cmd ∧ t.reply = .written ∧
        t.block = if busy s.block then setWign s.block else acceptWord s.cfg v s.block)) := by
  cases hi : s.inbox with
  | nil =>
    rw [step_core s [] (.inr ⟨hi, rfl⟩)] at h
    cases h
    simp
  | cons e rest =>
    cases e with
    | core =>
      rw [step_core s rest (.inl hi)] at h
      cases h
      simp
    | reset =>
      rw [step_reset s rest hi] at h
      cases h
      simp
    | host a =>
      rw [step_host s rest a hi] at h
      cases a with
      | read addr width =>
        simp only [hostStep] at h
        split at h
        · cases h; simp
        · split at h
          · cases h
          · cases h; simp
      | write addr width v =>
        simp only [hostStep] at h
        split at h
        · cases h; simp
        · split at h
          · cases h
          · rename_i hw hl
            simp only [Bool.not_eq_true, Bool.not_eq_false'] at hw hl
            obtain ⟨hb, hlt⟩ := (inWindow_iff _ _).1 hw
            obtain ⟨rfl, h4⟩ := (accessLegal_iff _ _).1 hl
            have ha : otpBase s.cfg + (addr - otpBase s.cfg) = addr := by omega
            rw [busWrite_eq] at h
            cases h
            refine ⟨rfl, rfl, ?_⟩
            cases hr : regAt (addr - otpBase s.cfg) with
            | none => exact .inr (.inr (.inl ⟨⟨_, rfl⟩, by simp⟩))
            | some r =>
              by_cases hc : r = .cmd
              · subst hc
                refine .inr (.inr (.inr (.inr ⟨addr - otpBase s.cfg, v, ?_, by omega, h4, hr, rfl, ?_⟩)))
                · simp [ha]
                · simp
              · refine .inr (.inr (.inr (.inl ⟨addr - otpBase s.cfg, v, r, ?_, by omega, h4, hr, hc, ?_, rfl⟩)))
                · simp [ha]
                · cases r <;> simp_all

end Sys2Proof.Machine
end

