-- ==== Sys2Proof/Laws/Trunc.lean ====
section
/-! SUPPORT. The truncation's arithmetic: ranges, and the digit registers as sums. -/

namespace Sys2Proof.Machine

theorem dtOffset_eq (d : List Byte) : dtOffset d = (d.getD (d.length - 1) 0).toNat % 16 := by
  unfold dtOffset
  rw [BitVec.toNat_and]
  exact Nat.and_two_pow_sub_one_eq_mod _ 4

/-- The value is the window's integer modulo 2^31 (R151). -/
theorem dtValue_eq (d : List Byte) : dtValue d = be (window d (dtOffset d) 4) % 2 ^ 31 :=
  Nat.and_two_pow_sub_one_eq_mod _ 31

theorem dtOffset_lt (d : List Byte) : dtOffset d < 16 := by
  rw [dtOffset_eq]; omega

theorem dtValue_lt (d : List Byte) : dtValue d < 2 ^ 31 := by
  rw [dtValue_eq]; omega

theorem dtCode_le (d : List Byte) (n : Nat) : dtCode d n ≤ dtValue d :=
  Nat.mod_le _ _

theorem bcdDigit_lt (c k : Nat) : bcdDigit c k < 10 :=
  Nat.mod_lt _ (by decide)

/-- CODE_BCD_LO as a plain sum (R47). -/
theorem bcdLo_eq (c : Nat) : bcdLo c = bcdDigit c 0 + bcdDigit c 1 * 16 + bcdDigit c 2 * 256 +
    bcdDigit c 3 * 4096 + bcdDigit c 4 * 65536 + bcdDigit c 5 * 1048576 + bcdDigit c 6 * 16777216 +
    bcdDigit c 7 * 268435456 := by
  have h : bcdLo c = bcdDigit c 0 <<< 0 + (bcdDigit c 1 <<< 4 + (bcdDigit c 2 <<< 8 +
      (bcdDigit c 3 <<< 12 + (bcdDigit c 4 <<< 16 + (bcdDigit c 5 <<< 20 + (bcdDigit c 6 <<< 24 +
      (bcdDigit c 7 <<< 28 + 0))))))) := rfl
  rw [h]
  simp only [Nat.shiftLeft_eq]
  norm_num
  omega

theorem bcdLo_lt (c : Nat) : bcdLo c < 2 ^ 32 := by
  rw [bcdLo_eq]
  have h := bcdDigit_lt c
  have h0 := h 0; have h1 := h 1; have h2 := h 2; have h3 := h 3
  have h4 := h 4; have h5 := h 5; have h6 := h 6; have h7 := h 7
  omega

/-- CODE_BCD_HI as a plain sum (R47). -/
theorem bcdHi_eq (c : Nat) : bcdHi c = bcdDigit c 8 + 16 * bcdDigit c 9 := by
  have h8 := bcdDigit_lt c 8
  unfold bcdHi
  rw [Nat.or_comm, ← Nat.shiftLeft_add_eq_or_of_lt (by omega : bcdDigit c 8 < 2 ^ 4),
    Nat.shiftLeft_eq]
  omega

theorem bcdHi_lt (c : Nat) : bcdHi c < 256 := by
  rw [bcdHi_eq]
  have h8 := bcdDigit_lt c 8
  have h9 := bcdDigit_lt c 9
  omega

/-- What `writeTruncation` leaves in the result registers, as numbers: no register is too narrow. -/
theorem toNat_writeTruncation_offset (d : List Byte) (n : Nat) (b : Block) :
    (writeTruncation d n b).truncOffset.toNat = dtOffset d := by
  have := dtOffset_lt d
  show (BitVec.ofNat 32 (dtOffset d)).toNat = _
  rw [BitVec.toNat_ofNat]; omega

theorem toNat_writeTruncation_value (d : List Byte) (n : Nat) (b : Block) :
    (writeTruncation d n b).truncValue.toNat = dtValue d := by
  have := dtValue_lt d
  show (BitVec.ofNat 32 (dtValue d)).toNat = _
  rw [BitVec.toNat_ofNat]; omega

theorem toNat_writeTruncation_code (d : List Byte) (n : Nat) (b : Block) :
    (writeTruncation d n b).code.toNat = dtCode d n := by
  have := dtValue_lt d
  have := dtCode_le d n
  show (BitVec.ofNat 32 (dtCode d n)).toNat = _
  rw [BitVec.toNat_ofNat]; omega

theorem toNat_writeTruncation_bcdLo (d : List Byte) (n : Nat) (b : Block) :
    (writeTruncation d n b).codeBcdLo.toNat = bcdLo (dtCode d n) := by
  show (BitVec.ofNat 32 (bcdLo (dtCode d n))).toNat = _
  rw [BitVec.toNat_ofNat, Nat.mod_eq_of_lt (bcdLo_lt _)]

theorem toNat_writeTruncation_bcdHi (d : List Byte) (n : Nat) (b : Block) :
    (writeTruncation d n b).codeBcdHi.toNat = bcdHi (dtCode d n) := by
  have := bcdHi_lt (dtCode d n)
  show (BitVec.ofNat 32 (bcdHi (dtCode d n))).toNat = _
  rw [BitVec.toNat_ofNat]; omega

end Sys2Proof.Machine
end

