-- ==== Sys2Proof/Tests/Slice0.lean ====
section
/-! SUPPORT. Tests: expected results are those of spec/95_test_vectors.md (its ids are named), words are written out
from R120 and R122; and, for every obligation with hypotheses, a concrete state and operands that meet them. -/

namespace Sys2Proof.Tests

open Sys2Proof Sys2Proof.Machine

/-! ### Ill-formed terms are refused -/

theorem test_reserved_field_refused : commandWordWellFormed 0x00000013 = false := by decide

theorem test_top_reserved_bit_refused : commandWordWellFormed 0x80000001 = false := by decide

theorem test_opcode_zero_refused : commandWordWellFormed 0x00000000 = false := by decide

theorem test_opcode_five_refused : commandWordWellFormed 0x00000005 = false := by decide

theorem test_narrow_access_refused : accessLegal 0x010 2 = false := by decide

theorem test_unaligned_access_refused : accessLegal 0x002 4 = false := by decide

theorem test_access_below_window_refused :
    inWindow { Config.named with basePage := 1 } 4095 = false := by decide

theorem test_access_above_window_refused :
    inWindow { Config.named with basePage := 1 } 8192 = false := by decide

theorem test_ldkey_of_65_bytes_refused : pseudoWellFormed (.ldkey (zeroBytes 65)) = false := by decide

theorem test_lddig_of_65_bytes_refused : pseudoWellFormed (.lddig (zeroBytes 65)) = false := by decide

theorem test_ldctr_of_65_bits_refused : pseudoWellFormed (.ldctr (.num (2 ^ 64))) = false := by decide

/-! ### Command words, bit by bit (R120: RSV in bits 31:4, OP in bits 3:0; R122) -/

theorem test_decode_hmac : decode 0b00000000000000000000000000000001 = .ok .hmac := by decide

theorem test_decode_trunc : decode 0b00000000000000000000000000000010 = .ok .trunc := by decide

theorem test_decode_hotp : decode 0b00000000000000000000000000000011 = .ok .hotp := by decide

theorem test_decode_zeroize : decode 0b00000000000000000000000000000100 = .ok .zeroize := by decide

theorem test_decode_rejects_reserved_bit :
    decode 0b00000000000000000000000000010001 = .error .reservedBits := by decide

theorem test_table_words :
    decodeTableWord 32 1 = some .hmac ∧ decodeTableWord 32 2 = some .trunc ∧
    decodeTableWord 32 3 = some .hotp ∧ decodeTableWord 32 4 = some .zeroize ∧
    decodeTableWord 32 0 = none := by decide

/-! ### The hash functions and HMAC (95_test_vectors.md section 2.2, function checks) -/

theorem test_sha1_abc :
    be (sha1 [0x61, 0x62, 0x63]) = 0xa9993e364706816aba3e25717850c26c9cd0d89d := by decide +kernel

theorem test_sha256_abc : be (sha256 [0x61, 0x62, 0x63]) =
    0xba7816bf8f01cfea414140de5dae2223b00361a396177a9cb410ff61f20015ad := by decide +kernel

theorem test_sha512_abc : be (sha512 [0x61, 0x62, 0x63]) =
    0xddaf35a193617abacc417349ae20413112e6fa4e89a97ea20a9eeee64b55d39a2192992a274fc1a836ba3c23a3feebbd454d4423643ce80e2a9ac94fa54ca49f := by
  decide +kernel

/-- The first n primes, from a list of small numbers. -/
def firstPrimes (n : Nat) : List Nat :=
  (((List.range 410).drop 2).filter fun m =>
    ((List.range 20).drop 2).all fun d => m == d || m % d != 0).take n

/-- Whether k is the first w bits of the fraction of the e-th root of p, for a root below 32 (R218). -/
def rootBits (e w p k : Nat) : Bool :=
  (List.range 32).any fun q =>
    (q * 2 ^ w + k) ^ e ≤ p * 2 ^ (e * w) && p * 2 ^ (e * w) < (q * 2 ^ w + k + 1) ^ e

/-- R218: the SHA-256 constants are bits of the square and cube roots of the first primes. -/
theorem test_sha256_constants :
    sha256K.length = 64 ∧
    ((firstPrimes 64).zip sha256K).all (fun pk => rootBits 3 32 pk.1 pk.2.toNat) = true ∧
    ((firstPrimes 8).zip (hash8Words sha256Init)).all (fun pk => rootBits 2 32 pk.1 pk.2.toNat) =
      true := by decide +kernel

/-- R218: so are the SHA-512 constants. -/
theorem test_sha512_constants :
    sha512K.length = 80 ∧
    ((firstPrimes 80).zip sha512K).all (fun pk => rootBits 3 64 pk.1 pk.2.toNat) = true ∧
    ((firstPrimes 8).zip (hash8Words sha512Init)).all (fun pk => rootBits 2 64 pk.1 pk.2.toNat) =
      true := by decide +kernel

/-- `Jefe`. -/
def jefe : List Byte := [0x4A, 0x65, 0x66, 0x65]

/-- `what do ya want for nothing?`. -/
def forNothing : List Byte :=
  beBytes 28 0x7768617420646f2079612077616e7420666f72206e6f7468696e673f

theorem test_hmac_sha1_jefe :
    be (hmac .sha1 jefe forNothing) = 0xeffcdf6ae5eb2fa2d27416d5f184df9c259a7c79 := by decide +kernel

theorem test_hmac_sha512_jefe : be (hmac .sha512 jefe forNothing) =
    0x164b7a7bfcf819e2e395fbe73b56e0a387bd64222e831fd610270cd7ea2505549758bf75c05a994a6d034f65f8f0e6fdcaeab1a34d4a6b4b636e070a38bce737 := by
  decide +kernel

/-! ### The commands, one each from a small state -/

/-- The KEY words of `12345678901234567890`. -/
def rfcKey : Buffer :=
  #v[0x31323334, 0x35363738, 0x39303132, 0x33343536, 0x37383930, 0, 0, 0, 0, 0, 0, 0, 0, 0, 0, 0]

/-- The reset state with a CTRL, a KEY_LEN and the RFC key words. -/
def keyed20 (ctrl keyLen : Word) : State :=
  { State.reset with block := { Block.reset with ctrl := ctrl, keyLen := keyLen, key := rfcKey } }

/-- The reset state with the digest of vector T1. -/
def digestT1 (ctrl : Word) : State :=
  { State.reset with block := { Block.reset with
      ctrl := ctrl
      digest := #v[0x1F869869, 0x0E02CA16, 0x618550EF, 0x7F19DA8E, 0x945B555A,
        0, 0, 0, 0, 0, 0, 0, 0, 0, 0, 0] } }

/-- A command from a state, and one CORE step more (LAT = 1 in `Config.named`): the block it leaves. -/
def afterCommand (i : Instr) (s : State) : Block :=
  match exec i s with
  | .next t => coreStep t.block
  | .fault _ => s.block
  | .refused _ => s.block

/-- The next state of a step that goes on. -/
def nextOf : Host.Outcome State Fault Refusal → Option State
  | .next t => some t
  | .fault _ => none
  | .refused _ => none

/-- The fault of a step that stops in one. -/
def faultOf : Host.Outcome State Fault Refusal → Option Fault
  | .next _ => none
  | .fault f => some f
  | .refused _ => none

/-- Vector H1. -/
theorem test_hmac_h1 : afterCommand .hmac (keyed20 0x00000600 20) =
    { Block.reset with
      status := { done := true, err := false, wign := false, errCode := 0 }
      digest := #v[0xCC93CF18, 0x508D9493, 0x4C64B65D, 0x8BA7667F, 0xB7CDE4B0,
        0, 0, 0, 0, 0, 0, 0, 0, 0, 0, 0] } := by decide +kernel

/-- Vector HE3: KEY_TOO_LONG, with KEEP_KEY = 1. -/
theorem test_hmac_he3 : afterCommand .hmac (keyed20 0x00010600 65) =
    { (keyed20 0x00010600 65).block with
      status := { done := true, err := true, wign := false, errCode := 4 } } := by decide +kernel

/-- Vector T1. -/
theorem test_trunc_t1 : afterCommand .trunc (digestT1 0x00000600) =
    { (digestT1 0x00000600).block with
      status := { done := true, err := false, wign := false, errCode := 0 }
      truncOffset := 10
      truncValue := 0x50EF7F19
      code := 872921
      codeBcdLo := 0x00872921 } := by decide +kernel

/-- Vector TE3: INVALID_DIGITS. -/
theorem test_trunc_te3 : statusWord (afterCommand .trunc (digestT1 0x00000F00)) = 0x00000026 := by
  decide +kernel

/-- Vector O1: ten digits. -/
theorem test_hotp_o1 :
    let b := afterCommand .hotp (keyed20 0x00000A00 20)
    b.code = 0x4C93CF18 ∧ b.codeBcdLo = 0x84755224 ∧ b.codeBcdHi = 0x12 ∧ b.keyLen = 0 ∧
      statusWord b = 0x00000002 := by decide +kernel

/-- Vector OE5: KEY_TOO_LONG before INVALID_DIGITS. -/
theorem test_hotp_oe5 :
    let b := afterCommand .hotp (keyed20 0x00000B00 127)
    statusWord b = 0x00000046 ∧ b.keyLen = 0 ∧ b.key = zeroBuffer := by decide +kernel

/-- Vector Z1, in short: IRQ_EN.DONE_IE = 1, so `irq` is asserted afterwards. -/
theorem test_zeroize_z1 :
    let s := keyed20 0x00010600 20
    let b := afterCommand .zeroize { s with block := { s.block with irqEn := 1, code := 287082 } }
    b.key = zeroBuffer ∧ b.keyLen = 0 ∧ b.code = 0 ∧ b.ctrl = 0x00010600 ∧
      statusWord b = 0x00000002 ∧ irq b = true := by decide +kernel

/-! ### Register accesses (95_test_vectors.md section 2.5) -/

/-- A state whose next turn is a read of a register of the window. -/
def reading (off width : Nat) (s : State) : State :=
  { s with inbox := [.host (.read (otpBase s.cfg + off) width)] }

/-- A state whose next turn is a write to the window. -/
def writing (off width : Nat) (v : Word) (s : State) : State :=
  { s with inbox := [.host (.write (otpBase s.cfg + off) width v)] }

/-- A HOTP command has been accepted and one CORE step is left. -/
def busyHotp : State :=
  { keyed20 0x00000600 20 with
    block := { (keyed20 0x00000600 20).block with pending := some .hotp, left := 1 } }

/-- Vector A1. -/
theorem test_read_id :
    nextOf (step (reading 0x000 4 State.reset)) = some { State.reset with reply := .data 0x4F545048 } := by
  decide +kernel

/-- Vector A7: the reserved bits of CTRL are discarded. -/
theorem test_write_ctrl : nextOf (step (writing 0x008 4 0xFFFFFFFF State.reset)) =
    some { State.reset with
      reply := .written, block := { Block.reset with ctrl := 0x00010F03 } } := by decide +kernel

/-- Vector A10: KEY0 is held, and reads as zero. -/
theorem test_key_is_write_only :
    busRead Config.named { Block.reset with key := zeroBuffer.set 0 0xDEADBEEF } 0x040 = 0 := by
  decide +kernel

/-- Vector A12: a 2-byte read is a bus error. -/
theorem test_narrow_read_faults :
    faultOf (step (reading 0x010 2 State.reset)) = some (.busError 0x010 2) := by decide +kernel

/-- Vector A14: a 1-byte write at CMD is a bus error. -/
theorem test_narrow_write_faults :
    faultOf (step (writing 0x00C 1 0x02 State.reset)) = some (.busError 0x00C 1) := by decide +kernel

/-- Vectors A15 and A16: a command is lost while BUSY, and WIGN is cleared while BUSY. -/
theorem test_busy_command_lost :
    statusWord busyHotp.block = 0x00000001 ∧
    nextOf (step (writing 0x00C 4 0x4 busyHotp)) = some { busyHotp with
      reply := .written
      block := { busyHotp.block with
        status := { done := false, err := false, wign := true, errCode := 0 } } } ∧
    statusWord (statusW1C 0x8 (setWign busyHotp.block)) = 0x00000001 := by decide +kernel

/-- Vectors A20 and A21: clearing DONE alone, and clearing ERR with its code. -/
theorem test_status_w1c :
    let b := reportError .invalidSecret Block.reset
    statusWord b = 0x00000016 ∧ statusWord (statusW1C 0x2 b) = 0x00000014 ∧
      statusWord (statusW1C 0x4 b) = 0x00000002 := by decide +kernel

/-- Vectors I5 and I7: an illegal word keeps the key. -/
theorem test_illegal_words :
    nextOf (step (writing 0x00C 4 0x00000013 (keyed20 0x00000600 20))) =
      some { keyed20 0x00000600 20 with
        reply := .written
        block := reportError .illegalCommand (keyed20 0x00000600 20).block } ∧
    nextOf (step (writing 0x00C 4 0xFFFFFFFF (keyed20 0x00000600 20))) =
      some { keyed20 0x00000600 20 with
        reply := .written
        block := reportError .illegalCommand (keyed20 0x00000600 20).block } := by decide +kernel

/-- The command word handed over by `withFetchWord` is the next step's. -/
theorem test_fetch_word_runs :
    nextOf (step (State.reset.withFetchWord 32 2)) =
      nextOf (exec .trunc { State.reset with reply := .written }) := by
  decide +kernel

/-! ### Witnesses: states and operands that meet the hypotheses of the obligations -/

/-- A state with one turn waiting. -/
def withTurn (e : Event) (s : State) : State :=
  { s with inbox := [e] }

/-- HMAC, TRUNC and HOTP all pass in this state, whose KEY_LEN and DIGITS are at the given values. -/
theorem passes_of (op : Op) (s : State) (h1 : algLegal s.cfg (ctrlAlg s.block) = true)
    (h2 : 1 ≤ s.block.keyLen.toNat ∧ s.block.keyLen.toNat ≤ 64)
    (h3 : 1 ≤ ctrlDigits s.block ∧ ctrlDigits s.block ≤ 10) : Passes s.cfg op s.block :=
  ⟨h1, fun _ => h2, fun _ => h3⟩

/-- An accepted HOTP meets the invariant. -/
theorem busyHotp_inv : busyHotp.Inv where
  ctrlReserved := by decide
  irqEnReserved := by decide
  keyLenReserved := by decide
  busyFlags := by decide
  noErrorCode := by decide
  errorCodeNamed := by decide
  offsetBound := by decide
  valueBound := by decide
  codeBound := by decide
  bcdLoDigits := by decide
  bcdHiDigits := by decide
  idleLeft := by decide
  busyLeft := by rintro op ⟨⟩; decide
  busyAlg := by rintro op ⟨⟩; decide
  busyKey := by rintro op ⟨⟩; decide
  busyDigits := by rintro op ⟨⟩; decide

theorem witness_ResetLeavesTheResetState : (withTurn .reset busyHotp).inbox = .reset :: [] := by decide

theorem witness_EveryStepKeepsInvariant :
    busyHotp.Inv ∧ ∃ t, step busyHotp = .next t := ⟨busyHotp_inv, _, rfl⟩

theorem witness_StepRunsTheCommandWritten :
    (writing 0x00C 4 0x3 State.reset).inbox =
      .host (.write (otpBase State.reset.cfg + 0x00C) 4 0x3) :: [] ∧ decode 0x3 = .ok .hotp := by decide

theorem witness_IllegalWordIsRefused :
    (writing 0x00C 4 0x00000005 State.reset).inbox =
      .host (.write (otpBase State.reset.cfg + 0x00C) 4 0x00000005) :: [] ∧
    busy State.reset.block = false ∧ State.reset.block.status.wign = false ∧
    decode 0x00000005 = .error .reservedOpcode ∧ decode 0x00000000 = .error .reservedOpcode ∧
    decode 0x0000000F = .error .reservedOpcode ∧ decode 0x00000011 = .error .reservedBits ∧
    decode 0x80000001 = .error .reservedBits := by decide

/-- Every register of the map, the first and last of each group, and the reserved offsets at their ends. -/
def someOffsets : List Nat :=
  [0x000, 0x004, 0x008, 0x00C, 0x010, 0x014, 0x018, 0x01C, 0x020, 0x024, 0x028, 0x02C] ++
    [0x030, 0x034, 0x038, 0x03C, 0x040, 0x07C, 0x080, 0x0BC, 0x0C0, 0xFFC]

theorem witness_ReadAnswersTheRegister :
    ∀ off ∈ someOffsets, (reading off 4 busyHotp).inbox =
      .host (.read (otpBase busyHotp.cfg + off) 4) :: [] ∧ off < 4096 ∧ off % 4 = 0 := by decide

theorem witness_IdleOperandWritesStore :
    busy State.reset.block = false ∧
    ∀ off ∈ [0x008, 0x018, 0x020, 0x024, 0x040, 0x07C, 0x080, 0x0BC],
      (writing off 4 0xFFFFFFFF State.reset).inbox =
        .host (.write (otpBase State.reset.cfg + off) 4 0xFFFFFFFF) :: [] := by decide

theorem witness_IrqEnableIsWritableAtAnyTime :
    (writing 0x014 4 0xFFFFFFFF busyHotp).inbox =
      .host (.write (otpBase busyHotp.cfg + 0x014) 4 0xFFFFFFFF) :: [] := by decide

theorem witness_StatusWriteClearsWrittenBits :
    (writing 0x010 4 0x0000000E busyHotp).inbox =
      .host (.write (otpBase busyHotp.cfg + 0x010) 4 0x0000000E) :: [] := by decide

theorem witness_ReservedAndReadOnlyWritesAreIgnored :
    ∀ off ∈ [0x000, 0x004, 0x01C, 0x028, 0x038, 0x03C, 0x0C0, 0xFFC],
      off < 4096 ∧ off % 4 = 0 ∧
      (reading off 4 State.reset).inbox =
        .host (.read (otpBase State.reset.cfg + off) 4) :: [] ∧
      (writing off 4 0x1234 State.reset).inbox =
        .host (.write (otpBase State.reset.cfg + off) 4 0x1234) :: [] := by decide

theorem witness_BusyOperandWritesAreLost :
    busy busyHotp.block = true ∧
    ∀ off ∈ [0x008, 0x00C, 0x018, 0x020, 0x024, 0x040, 0x07C, 0x080, 0x0BC],
      off % 4 = 0 ∧ (writing off 4 0x4 busyHotp).inbox =
        .host (.write (otpBase busyHotp.cfg + off) 4 0x4) :: [] := by decide

theorem witness_OnlyIllegalAccessesFault :
    faultOf (step (reading 0xFFE 4 State.reset)) = some (.busError 0xFFE 4) ∧
    faultOf (step (writing 0x000 8 0 State.reset)) = some (.busError 0x000 8) := by decide

theorem witness_AccessOutsideTheWindowIsNotSeen :
    4096 - 1 < otpBase { Config.named with basePage := 1 } ∧
    otpBase { Config.named with basePage := 1 } + 4096 ≤ 8192 ∧
    (withTurn (.host (.read 8192 4)) State.reset).inbox = .host (.read 8192 4) :: [] ∧
    (withTurn (.host (.write 8192 4 0)) State.reset).inbox = .host (.write 8192 4 0) :: [] := by decide

/-- HmacCompletes, KeyBytesPastTheLengthAreIgnored: KEY_LEN at both ends, DIGITS out of range, so HMAC passes. -/
theorem witness_HmacCompletes :
    (busy (keyed20 0x00000000 1).block = false ∧
      Passes Config.named .hmac (keyed20 0x00000000 1).block) ∧
    (busy (keyed20 0x00010001 64).block = false ∧
      Passes Config.named .hmac (keyed20 0x00010001 64).block) := by
  refine ⟨⟨by decide, by decide, fun _ => by decide, ?_⟩, ⟨by decide, by decide, fun _ => by decide, ?_⟩⟩ <;>
    exact fun h => absurd h (by decide)

/-- TRUNC needs no key: DIGITS at both ends, and SHA-512 in a build that has it. -/
theorem witness_TruncCompletes :
    (busy (digestT1 0x00000100).block = false ∧
      Passes Config.named .trunc (digestT1 0x00000100).block) ∧
    (busy (digestT1 0x00000A02).block = false ∧
      Passes { Config.named with hasSha512 := true } .trunc (digestT1 0x00000A02).block) := by
  refine ⟨⟨by decide, by decide, ?_, fun _ => by decide⟩, ⟨by decide, by decide, ?_, fun _ => by decide⟩⟩ <;>
    exact fun h => absurd h (by decide)

/-- HotpCompletes, HotpIsHmacThenTrunc (KEEP_KEY both ways) and HotpWithoutReloadFails (KEEP_KEY = 0). -/
theorem witness_HotpCompletes :
    (busy (keyed20 0x00000600 20).block = false ∧ ctrlKeepKey (keyed20 0x00000600 20).block = false ∧
      Passes Config.named .hotp (keyed20 0x00000600 20).block) ∧
    (busy (keyed20 0x00010A01 64).block = false ∧ ctrlKeepKey (keyed20 0x00010A01 64).block = true ∧
      Passes Config.named .hotp (keyed20 0x00010A01 64).block) :=
  ⟨⟨by decide, by decide, passes_of .hotp (keyed20 0x00000600 20) (by decide) (by decide) (by decide)⟩,
    ⟨by decide, by decide, passes_of .hotp (keyed20 0x00010A01 64) (by decide) (by decide) (by decide)⟩⟩

/-- ZeroizeErasesKeyAndResults: idle (with a zero block too) and busy; CommandsAreLostWhileBusy. -/
theorem witness_ZeroizeErasesKeyAndResults :
    busy (keyed20 0x00000600 20).block = false ∧ busy busyHotp.block = true ∧
    busy Block.reset = false ∧ Block.reset.status.wign = false ∧
    (∀ i : Fin 16, Block.reset.key[i] = 0) ∧ Block.reset.keyLen = 0 ∧
    (∀ i : Fin 16, Block.reset.digest[i] = 0) ∧ Block.reset.truncOffset = 0 ∧
    Block.reset.truncValue = 0 ∧ Block.reset.code = 0 ∧ Block.reset.codeBcdLo = 0 ∧
    Block.reset.codeBcdHi = 0 := by decide

/-- FirstFailingCheckIsReported: each clause, at the ends of its range. -/
theorem witness_FirstFailingCheckIsReported :
    busy (keyed20 0x00000603 0).block = false ∧ ctrlAlg (keyed20 0x00000603 0).block = 3 ∧
    ctrlAlg (keyed20 0x00000602 20).block = 2 ∧ Config.named.hasSha512 = false ∧
    (ctrlAlg (keyed20 0x00000000 0).block = 0 ∧ keyed .hotp = true ∧
      (keyed20 0x00000000 0).block.keyLen.toNat = 0) ∧
    (ctrlAlg (keyed20 0x00000B01 65).block = 1 ∧ keyed .hmac = true ∧
      65 ≤ (keyed20 0x00000B01 65).block.keyLen.toNat) ∧
    (keyed .trunc = false ∧ truncates .trunc = true ∧ ctrlDigits (keyed20 0x00000000 0).block = 0) ∧
    (truncates .hotp = true ∧ 11 ≤ ctrlDigits (keyed20 0x00000B00 64).block) := by decide

theorem witness_InternalCoreStepsAreInvisible :
    State.reset.inbox = [] ∧ State.reset.block.pending = none ∧
    (withTurn .core busyHotp).inbox = .core :: [] ∧ busyHotp.block.pending = some .hotp ∧
    1 < ({ busyHotp.block with left := 2 } : Block).left := by decide

theorem witness_CoreTurnsCompleteTheCommand :
    busyHotp.inbox = [] ∧ (withTurn .core busyHotp).inbox = .core :: [] ∧
    busyHotp.block.pending = some .hotp ∧ busyHotp.block.left = 1 := by decide

/-- BusyOperandsAreFixed: the completing step, and a host's turn while busy. -/
theorem witness_BusyOperandsAreFixed :
    busyHotp.block.pending = some .hotp ∧ busyHotp.inbox.head? ≠ some .reset ∧
    (writing 0x008 4 0 busyHotp).inbox.head? ≠ some .reset ∧
    (∃ t, step busyHotp = .next t) ∧ ∃ t, step (writing 0x008 4 0 busyHotp) = .next t :=
  ⟨rfl, by decide, by decide, ⟨_, rfl⟩, ⟨_, rfl⟩⟩

theorem witness_AcceptedCommandsComplete :
    busyHotp.Inv ∧ busyHotp.inbox = [] ∧ busyHotp.block.pending = some .hotp :=
  ⟨busyHotp_inv, rfl, rfl⟩

/-- The statements over every step (results, operands, counter): steps that answer a next state, idle and busy. -/
theorem witness_steps_go_on :
    busy busyHotp.block = true ∧ busyHotp.inbox.head? ≠ some .reset ∧
    (∃ t, step busyHotp = .next t) ∧ (∃ t, step (writing 0x00C 4 0x4 State.reset) = .next t) ∧
    ∃ t, step (writing 0x020 4 0x7 State.reset) = .next t :=
  ⟨by decide, by decide, ⟨_, rfl⟩, ⟨_, rfl⟩, ⟨_, rfl⟩⟩

theorem witness_WignIsSticky :
    (setWign busyHotp.block).status.wign = true ∧
    ∃ t, step (writing 0x010 4 0x8 { busyHotp with block := setWign busyHotp.block }) = .next t :=
  ⟨rfl, _, rfl⟩

theorem witness_ErrWithoutDoneComesFromTheHost :
    ∃ t, step (writing 0x010 4 0x2 { State.reset with
        block := reportError .invalidSecret Block.reset }) = .next t ∧
      t.block.status.err = true ∧ t.block.status.done = false :=
  ⟨_, rfl, by decide, by decide⟩

/-- InterruptFollowsTheCommand: the first clause's state is `witness_HotpCompletes`; these are the others'. -/
theorem witness_InterruptFollowsTheCommand :
    (busyHotp.Inv ∧ busy busyHotp.block = true ∧ busyHotp.inbox.head? ≠ some .reset ∧
      ∃ t, step busyHotp = .next t ∧ busy t.block = false) ∧
    busy State.reset.block = false ∧ ¬Passes Config.named .hotp State.reset.block ∧
    (writing 0x00C 4 0 State.reset).inbox =
      .host (.write (otpBase State.reset.cfg + 0x00C) 4 0) :: [] ∧
    decode 0 = .error .reservedOpcode :=
  ⟨⟨busyHotp_inv, by decide, by decide, _, rfl, rfl⟩, by decide,
    fun h => absurd (h.key rfl).1 (by decide), rfl, rfl⟩

/-- Vector Q1: INVALID_SECRET with ERR_IE alone asserts `irq`. -/
theorem test_irq_q1 :
    irq (afterCommand .hotp { State.reset with block := { Block.reset with irqEn := 2 } }) = true := by
  decide +kernel

/-- Two machines with different keys, and different values about to be written to KEY15. -/
theorem witness_TimingDoesNotDependOnData :
    SameControl (writing 0x07C 4 1 (keyed20 0x00000600 20))
      (writing 0x07C 4 2 { keyed20 0x00000600 20 with
        block := { (keyed20 0x00000600 20).block with key := zeroBuffer } }) where
  cfg := rfl
  ctrl := rfl
  status := rfl
  irqEn := rfl
  keyLen := rfl
  pending := rfl
  left := rfl
  inbox := .cons (.dataWrite _ _ _ _ (.key 15) (by decide) (by decide) (by decide)) .nil

theorem witness_TimingDoesNotDependOnDigits :
    busy (keyed20 0x00000100 20).block = false ∧ busy (keyed20 0x00000A00 20).block = false ∧
    Passes Config.named .hotp (keyed20 0x00000100 20).block ∧
    Passes Config.named .hotp (keyed20 0x00000A00 20).block ∧
    ctrlAlg (keyed20 0x00000100 20).block = ctrlAlg (keyed20 0x00000A00 20).block :=
  ⟨by decide, by decide,
    passes_of .hotp (keyed20 0x00000100 20) (by decide) (by decide) (by decide),
    passes_of .hotp (keyed20 0x00000A00 20) (by decide) (by decide) (by decide), by decide⟩

/-- TruncationOfADigest and TruncationReadsFiveBytes: a digest of 20 bytes of 0xFF (offset 15), 1 and 10 digits,
and one that differs from it in byte 0 only. -/
theorem witness_TruncationOfADigest :
    (List.replicate 20 (0xFF : Byte)).length = digestLength .sha1 ∧
    dtOffset (List.replicate 20 0xFF) = 15 ∧
    (0 :: List.replicate 19 (0xFF : Byte)).length = (List.replicate 20 (0xFF : Byte)).length ∧
    ∀ i, 15 ≤ i → i < 20 →
      (0 :: List.replicate 19 (0xFF : Byte))[i]? = (List.replicate 20 (0xFF : Byte))[i]? := by
  refine ⟨by decide, by decide, by decide, ?_⟩
  intro i h1 h2
  interval_cases i <;> rfl

theorem witness_BcdRegistersHoldTheDigits :
    2147483647 < 2 ^ 31 ∧ 9 < 10 ^ 1 ∧ bcdLo 2147483647 = 0x47483647 ∧ bcdHi 2147483647 = 0x21 := by
  decide

/-- KeyBytesPastTheLengthAreIgnored: KEY_LEN = 20, and KEY15 differs. -/
theorem witness_KeyBytesPastTheLengthAreIgnored :
    ∀ i ∈ List.range 20, (bufferBytes (rfcKey.set 15 0xFFFFFFFF))[i]? = (bufferBytes rfcKey)[i]? := by
  decide +kernel

theorem witness_TrailingZeroKeyByteChangesNothing :
    (zeroBytes 63).length < blockLength .sha1 ∧ (zeroBytes 127).length < blockLength .sha512 := by decide

theorem witness_SchedulesMeetTheirRecurrences :
    (List.replicate 16 (0 : BitVec 32)).length = 16 ∧ (List.replicate 16 (0 : BitVec 64)).length = 16 ∧
    16 ≤ 16 ∧ 79 < 80 ∧ 63 < 64 := by decide

theorem witness_HmacIsFourCompressions :
    (zeroBytes 64).length ≤ 64 ∧ (zeroBytes 8).length = 8 := by decide

/-- DutifulHostLosesNoWrite: a host's write while idle, its read while busy, and the other agents' turns. -/
theorem witness_DutifulHostLosesNoWrite :
    dutiful State.reset (.host (.write 0x07C 4 1)) ∧ dutiful busyHotp (.host (.read 0x010 4)) ∧
    dutiful busyHotp (.host (.write 0x010 4 0xE)) ∧ dutiful busyHotp .core ∧
    dutiful busyHotp .reset ∧ busyHotp.block.status.wign = false :=
  ⟨fun _ => ⟨by decide, fun _ _ _ => by decide⟩, fun _ => by decide,
    fun _ => ⟨by decide, fun r hr hi => by
      have h : r = .status := by
        have h' : regAt (0x010 - otpBase busyHotp.cfg) = some .status := by decide
        rw [hr] at h'
        injection h'
      subst h
      exact absurd hi (by decide)⟩, trivial, trivial, rfl⟩

/-- A run of the expansion of LDKEY against the reset state. -/
def ldkeyRun (S : List Byte) : HostRun :=
  { startRun Config.named [] with program := expandPseudo 0 (.ldkey S) }

theorem witness_LdkeyLoadsTheKey :
    jefe.length ≤ 64 ∧ ([] : List Byte).length ≤ 64 ∧ (zeroBytes 64).length ≤ 64 ∧ (ldkeyRun jefe).place = 0 ∧
    (ldkeyRun jefe).status = .running ∧ (ldkeyRun jefe).program = expandPseudo 0 (.ldkey jefe) ∧
    busy (ldkeyRun jefe).machine.block = false ∧ (ldkeyRun []).program = expandPseudo 0 (.ldkey []) ∧
    (ldkeyRun []).place = 0 := by decide

/-- The expansion's run holds the key (R129, R130). -/
theorem test_ldkey :
    keyOperand (runTurns [.line, .line] (ldkeyRun jefe)).machine.block = jefe := by decide +kernel

/-- Program P3's `c <- floor((time - t0) / interval)` and `LDCTR c`: the values are those of the moment. -/
theorem test_encoding_p3 :
    programEncoding Config.named
      [.plain (.assign "c" (.div (.sub (.num 59) (.num 0)) (.num 30))), .pseudo (.ldctr (.var "c"))]
      [.line, .line, .line] = [.write 0x020 0, .write 0x024 1] := by decide +kernel

/-- Program P1's `HOTP` and `WAIT`: the read of STATUS is made once for each pass of the loop. -/
theorem test_encoding_wait :
    let s := keyed20 0x00000600 20
    let r : HostRun := { startRun Config.named [.pseudo .hotp, .pseudo .wait, .plain .halt] with machine := s }
    (runTurns [.line, .line, .line, .line, .agent .core, .line, .line, .line, .line] r).made =
      [.write 0x00C 3, .read 0x010, .read 0x010] := by decide +kernel

theorem witness_LinesMakeTheirTransactions :
    let r := startRun Config.named
      [.pseudo .wait, .plain (.wr .ctrl (.num 1)), .plain (.assign "x" (.num 2)), .plain (.goto (.fresh 0))]
    r.status ≠ .finished ∧
    r.program[0]? = some (.label (.fresh 0)) ∧ r.program[1]? = some (.rd .status "s") ∧
    r.program[2]? = some (.ifGoto (.bit (.var "s") 0) (.fresh 0)) ∧
    r.program[3]? = some (.wr .ctrl (.num 1)) ∧ r.program[4]? = some (.assign "x" (.num 2)) ∧
    r.program[5]? = some (.goto (.fresh 0)) ∧ .label (.fresh 0) ∈ r.program ∧
    evalCond [] (.bit (.var "s") 0) = false ∧ evalCond [("s", 1)] (.bit (.var "s") 0) = true := by
  decide

theorem witness_RunsEndOnlyAtAnIdleHalt :
    (startRun Config.named [.plain .halt]).status ≠ .finished ∧
    (runTurn .line (startRun Config.named [.plain .halt])).status = .finished := by decide

theorem witness_BusErrorsSpoilTheRunOnly :
    (0xFFE < 4096 ∧ ¬(4 = 4 ∧ 0xFFE % 4 = 0)) ∧ (0 < 4096 ∧ ¬(2 = 4 ∧ 0 % 4 = 0)) ∧
    (startRun Config.named []).status ≠ .finished ∧
    ({ startRun Config.named [] with status := .faulted } : HostRun).status = .faulted := by decide

end Sys2Proof.Tests
end

/-! ### A legal access as one step, by the register at its offset (R48, R252, R253) -/

namespace Sys2Proof.Machine

/-- The turn of a legal read: the host is answered with `BusRead` and the block is unchanged (R252). -/
theorem step_read (s : State) (rest : List Event) (off : Nat) (hlt : off < 4096) (hal : off % 4 = 0)
    (h : s.inbox = .host (.read (otpBase s.cfg + off) 4) :: rest) :
    step s = .next { s with inbox := rest, reply := .data (busRead s.cfg s.block off) } := by
  rw [step_host s rest _ h]
  exact hostStep_read { s with inbox := rest } off hlt hal

/-- The turn of a legal write is `BusWrite` with the write answered as taken (R253). -/
theorem step_write (s : State) (rest : List Event) (off : Nat) (v : Word) (hlt : off < 4096)
    (hal : off % 4 = 0) (h : s.inbox = .host (.write (otpBase s.cfg + off) 4 v) :: rest) :
    step s = busWrite off v { s with inbox := rest, reply := .written } := by
  rw [step_host s rest _ h]
  exact hostStep_write { s with inbox := rest } off v hlt hal

/-- A write at a reserved offset changes nothing (R48). -/
theorem busWrite_of_regAt_none (off : Nat) (v : Word) (s : State) (h : regAt off = none) :
    busWrite off v s = .next s := by
  rw [busWrite_eq, h]

/-- A write at a register's own offset is `writeRegister` of it, CMD left out (R253, R254). -/
theorem busWrite_offset (r : Reg) (v : Word) (s : State) (hr : r ≠ .cmd) :
    busWrite r.offset v s = .next { s with block := writeRegister r v s.block } := by
  rw [busWrite_eq, regAt_offset]
  cases r with
  | cmd => exact absurd rfl hr
  | _ => rfl

/-- The turn of a legal write to a register other than CMD (R253, R254). -/
theorem step_write_register (s : State) (rest : List Event) (r : Reg) (v : Word) (hr : r ≠ .cmd)
    (h : s.inbox = .host (.write (otpBase s.cfg + r.offset) 4 v) :: rest) :
    step s = .next { s with
      inbox := rest, reply := .written, block := writeRegister r v s.block } := by
  rw [step_write s rest r.offset v (offset_lt r).1 (offset_lt r).2 h, busWrite_offset r v _ hr]

/-- A read at a register's own offset returns that register (R252). -/
@[simp] theorem busRead_offset (cfg : Config) (b : Block) (r : Reg) :
    busRead cfg b r.offset = readRegister cfg b r := by
  simp [busRead]

/-- A reserved offset reads as zero (R48). -/
theorem busRead_of_regAt_none (cfg : Config) (b : Block) (off : Nat) (h : regAt off = none) :
    busRead cfg b off = 0 := by
  simp [busRead, h]

/-- No register stands at 0x01C, at 0x03C or from 0x0C0 on (R30, R48). -/
theorem regAt_reserved (off : Nat) (h : off = 0x01C ∨ off = 0x03C ∨ 0x0C0 ≤ off) :
    regAt off = none := by
  refine regAt_eq_none off fun r => ?_
  cases r <;> simp only [Reg.offset] <;> omega

/-! ### The read-only registers (R48) -/

/-- The registers whose writes are ignored at any time: ID, CAPS and the results but the digest (R48, R253). -/
def readOnlyRegs : List Reg :=
  [.id, .caps, .truncOffset, .truncValue, .code, .codeBcdLo, .codeBcdHi]

/-- A write to a read-only register is ignored, BUSY or not, and leaves WIGN (R48, R254). -/
theorem writeRegister_readOnly (r : Reg) (v : Word) (b : Block) (h : r ∈ readOnlyRegs) :
    writeRegister r v b = b := by
  simp only [readOnlyRegs, List.mem_cons, List.not_mem_nil, or_false] at h
  rcases h with rfl | rfl | rfl | rfl | rfl | rfl | rfl <;> rfl

/-- The aligned offsets of ID and CAPS and from 0x028 to 0x038 are those of read-only registers (R30). -/
theorem exists_readOnly_at (off : Nat) (hal : off % 4 = 0)
    (h : off = 0x000 ∨ off = 0x004 ∨ (0x028 ≤ off ∧ off ≤ 0x038)) :
    ∃ r ∈ readOnlyRegs, r.offset = off := by
  have hoff : off = 0x000 ∨ off = 0x004 ∨ off = 0x028 ∨ off = 0x02C ∨ off = 0x030 ∨ off = 0x034 ∨
      off = 0x038 := by omega
  rcases hoff with rfl | rfl | rfl | rfl | rfl | rfl | rfl <;> decide

/-- A write to a reserved offset or to a read-only register changes nothing (R48). -/
theorem busWrite_ignored (off : Nat) (v : Word) (s : State) (hal : off % 4 = 0)
    (h : off = 0x01C ∨ off = 0x03C ∨ 0x0C0 ≤ off ∨ off = 0x000 ∨ off = 0x004 ∨
      (0x028 ≤ off ∧ off ≤ 0x038)) :
    busWrite off v s = .next s := by
  by_cases hres : off = 0x01C ∨ off = 0x03C ∨ 0x0C0 ≤ off
  · exact busWrite_of_regAt_none off v s (regAt_reserved off hres)
  · obtain ⟨r, hr, rfl⟩ := exists_readOnly_at off hal (by omega)
    have hcmd : r ≠ .cmd := by rintro rfl; exact absurd hr (by decide)
    rw [busWrite_offset r v s hcmd, writeRegister_readOnly r v s.block hr]

/-! ### IRQ_EN and the interrupt line (R42, R280) -/

/-- A write to IRQ_EN stores its two enables, BUSY or not (R42). -/
@[simp] theorem writeRegister_irqEn (v : Word) (b : Block) :
    writeRegister .irqEn v b = { b with irqEn := v &&& 0x3 } := rfl

/-- With the two low bits of v in IRQ_EN, bit 0 of v enables DONE and bit 1 ERR into `irq` (R42, R280). -/
theorem irq_of_irqEn_low_bits (v : Word) (b : Block) :
    irq { b with irqEn := v &&& 0x3 } =
      ((b.status.done && v.getLsbD 0) || (b.status.err && v.getLsbD 1)) := by
  have hDoneIE : (v &&& 0x3).getLsbD 0 = v.getLsbD 0 := by simp
  have hErrIE : (v &&& 0x3).getLsbD 1 = v.getLsbD 1 := by simp
  simp only [irq, doneIE, errIE, hDoneIE, hErrIE]

/-! ### The statements -/

/-- Settles O12: IRQ_EN is not IDLE_ONLY, so its write is a store in every state, and `irq` is read off it. -/
theorem irqEnableIsWritableAtAnyTime : Obligations.IrqEnableIsWritableAtAnyTime := by
  intro s rest v h
  refine ⟨_, ?_, rfl, ?_, irq_of_irqEn_low_bits v s.block, rfl⟩
  · rw [step_write_register s rest .irqEn v (by decide) h, writeRegister_irqEn]
  · exact busRead_offset s.cfg { s.block with irqEn := v &&& 0x3 } .irqEn

/-- Settles O14: the register map is empty at the reserved offsets, and a read-only register stores nothing. -/
theorem reservedAndReadOnlyWritesAreIgnored : Obligations.ReservedAndReadOnlyWritesAreIgnored := by
  intro s rest off v hlt hal
  refine ⟨fun h => ?_, fun h => ?_⟩
  · have hstep := step_read s rest off hlt hal h
    refine ⟨fun hres => ?_, _, hstep⟩
    rw [hstep, busRead_of_regAt_none _ _ off (regAt_reserved off hres)]
  · have hstep := step_write s rest off v hlt hal h
    refine ⟨fun hign => ?_, _, hstep.trans (busWrite_eq off v _)⟩
    rw [hstep, busWrite_ignored off v _ hal hign]

end Sys2Proof.Machine

/-! ### Bytes of the register words (spec/20_memory.md R92) -/

namespace Sys2Proof.Machine

/-! ### The bytes of an encoding -/

/-- R10: byte j of `be_n(v)` stands at the weight 256^(n-1-j). -/
theorem beBytes_getElem? (n v j : Nat) (h : j < n) :
    (beBytes n v)[j]? = some (BitVec.ofNat 8 (v / 256 ^ (n - 1 - j))) := by
  induction n generalizing j with
  | zero => omega
  | succ n ih =>
    cases j with
    | zero => simp [beBytes]
    | succ j =>
      rw [beBytes, List.getElem?_cons_succ, ih j (by omega)]
      congr 4
      omega

/-- An n-byte encoding sees its value modulo 256^n only (R10). -/
theorem beBytes_mod (n v : Nat) : beBytes n (v % 256 ^ n) = beBytes n v := by
  have h := beBytes_be (beBytes n v)
  rwa [beBytes_length, be_beBytes] at h

/-- The encoding of m + n bytes is that of the high part, then that of the low n bytes. -/
theorem beBytes_add (m n v : Nat) :
    beBytes (m + n) v = beBytes m (v / 256 ^ n) ++ beBytes n v := by
  induction m with
  | zero => simp [beBytes]
  | succ m ih =>
    rw [Nat.succ_add, beBytes, ih, beBytes, List.cons_append, Nat.div_div_eq_div_mul, ← pow_add,
      Nat.add_comm n m]

/-- R92: byte j of a register word is its bits 31-8j:24-8j. -/
theorem beBytes_word_getElem? (w : Word) (j : Fin 4) :
    (beBytes 4 w.toNat)[j.val]? = some (w.extractLsb' (24 - 8 * j.val) 8) := by
  have hweight : 256 ^ (4 - 1 - j.val) = 2 ^ (24 - 8 * j.val) := by
    rw [show 256 = 2 ^ 8 from rfl, ← pow_mul]
    congr 1
    omega
  rw [beBytes_getElem? 4 _ _ j.isLt, hweight, BitVec.extractLsb', Nat.shiftRight_eq_div_pow]

/-! ### Where a byte of a buffer and of the message stands -/

/-- When f gives n elements for each element of l, entry n * i + j of them all is entry j of those of l[i]. -/
theorem getElem?_flatMap_of_length {α β : Type} (f : α → List β) (n : Nat)
    (hf : ∀ a, (f a).length = n) (l : List α) (i j : Nat) (hi : i < l.length) (hj : j < n) :
    (l.flatMap f)[n * i + j]? = (f l[i])[j]? := by
  induction l generalizing i with
  | nil => simp at hi
  | cons a l ih =>
    rw [List.flatMap_cons]
    cases i with
    | zero =>
      rw [Nat.mul_zero, Nat.zero_add, List.getElem?_append_left (by rw [hf]; exact hj),
        List.getElem_cons_zero]
    | succ i =>
      have hskip : n * (i + 1) + j - n = n * i + j := by rw [Nat.mul_succ]; omega
      rw [List.getElem?_append_right (by rw [hf, Nat.mul_succ]; omega), hf, hskip,
        ih i (by simpa using hi), List.getElem_cons_succ]

/-- Byte 4i + j of a buffer is byte j of its word i (R43, R49). -/
theorem bufferBytes_getElem? (b : Buffer) (i : Fin 16) (j : Fin 4) :
    (bufferBytes b)[4 * i.val + j.val]? = (beBytes 4 b[i].toNat)[j.val]? := by
  have hi : i.val < b.toList.length := by simp
  rw [bufferBytes, getElem?_flatMap_of_length _ 4 (fun _ => beBytes_length 4 _) _ _ _ hi j.isLt,
    Vector.getElem_toList, Fin.getElem_fin]

/-- The message is the four bytes of COUNTER_HI, then those of COUNTER_LO (R45, R92). -/
theorem messageOperand_eq (b : Block) :
    messageOperand b = beBytes 4 b.counterHi.toNat ++ beBytes 4 b.counterLo.toNat := by
  have hlo := b.counterLo.isLt
  have hhigh : counter b / 256 ^ 4 = b.counterHi.toNat := by unfold counter; omega
  have hlow : counter b % 256 ^ 4 = b.counterLo.toNat := by unfold counter; omega
  rw [messageOperand, beBytes_add 4 4, hhigh, ← beBytes_mod 4 (counter b), hlow]

@[simp] theorem messageOperand_length (b : Block) : (messageOperand b).length = 8 :=
  beBytes_length 8 _

/-! ### The statement -/

/-- Settles O40: a buffer and the message are encodings of register words end to end, and byte j of a word's encoding
is read off by its weight. -/
theorem bytesArePackedBigEndian : Obligations.BytesArePackedBigEndian := by
  refine ⟨fun b i j => ?_, fun b j => ⟨?_, ?_⟩, messageOperand_length⟩
  · rw [bufferBytes_getElem?, beBytes_word_getElem?]
  · have hj : j.val < (beBytes 4 b.counterHi.toNat).length := by simp
    rw [messageOperand_eq, List.getElem?_append_left hj, beBytes_word_getElem?]
  · have hj : (beBytes 4 b.counterHi.toNat).length ≤ 4 + j.val := by simp
    rw [messageOperand_eq, List.getElem?_append_right hj, beBytes_length, Nat.add_sub_cancel_left,
      beBytes_word_getElem?]

end Sys2Proof.Machine

/-! ### The opcode map (spec/30_encoding.md R120 to R123) -/

namespace Sys2Proof

/-- RSV is the word's quotient by 16 (R120). -/
theorem rsvField_toNat (w : Word) : (rsvField w).toNat = w.toNat / 16 := by
  have := w.isLt
  rw [rsvField, BitVec.extractLsb'_toNat, Nat.shiftRight_eq_div_pow]
  omega

/-- OP is the word's remainder by 16 (R120). -/
theorem opField_toNat (w : Word) : (opField w).toNat = w.toNat % 16 := by
  rw [opField, BitVec.extractLsb'_toNat, Nat.shiftRight_zero]

/-- A command's word decodes to that command (R121, R122). -/
@[simp] theorem decode_encode (i : Instr) : decode (encode i) = .ok i := by
  cases i <;> decide

/-- With RSV zero, a word is illegal by its opcode when OP is none of the four commands' (R121). -/
theorem decode_eq_reservedOpcode (w : Word) (hrsv : w.toNat / 16 = 0)
    (hop : w.toNat % 16 = 0 ∨ 5 ≤ w.toNat % 16) : decode w = .error .reservedOpcode := by
  have hrsv0 : rsvField w = 0 := BitVec.eq_of_toNat_eq (by rw [rsvField_toNat, hrsv]; rfl)
  have hne : ∀ c : BitVec 4, 1 ≤ c.toNat → c.toNat ≤ 4 → opField w ≠ c := by
    rintro c hlo hhi rfl
    rw [opField_toNat] at hlo hhi
    omega
  rw [decode, if_neg (not_not_intro hrsv0), if_neg (hne 0x1 (by decide) (by decide)),
    if_neg (hne 0x2 (by decide) (by decide)), if_neg (hne 0x3 (by decide) (by decide)),
    if_neg (hne 0x4 (by decide) (by decide))]

/-- Settles O4: the words 1 to 4 are the encodings of the commands, and in every other word below 16 RSV is zero and
OP is reserved. -/
theorem opcodeMapDecodes : Obligations.OpcodeMapDecodes := by
  refine ⟨decode_encode .hmac, decode_encode .trunc, decode_encode .hotp, decode_encode .zeroize,
    decode_eq_reservedOpcode 0 rfl (.inl rfl), fun n hn => ?_⟩
  have hval : (BitVec.ofNat 32 n.val).toNat = n.val := by
    rw [BitVec.toNat_ofNat, Nat.mod_eq_of_lt (by omega)]
  refine decode_eq_reservedOpcode _ ?_ (.inr ?_) <;> rw [hval] <;> omega

end Sys2Proof

/-! ### The truncation of a digest (spec/40_truncation.md R150 to R152) -/

namespace Sys2Proof.Machine

/-! ### The four bytes at the offset -/

/-- A window that begins inside the string is its first byte, then the window from the next byte on. -/
theorem window_succ (bs : List Byte) (i n : Nat) (h : i < bs.length) :
    window bs i (n + 1) = bs.getD i 0 :: window bs (i + 1) n := by
  rw [window, window, List.drop_eq_getElem_cons h, List.take_succ_cons, List.getD_eq_getElem _ _ h]

/-- Four bytes read big-endian: the byte at the lowest index is the most significant (R10, R151). -/
theorem be_window_four (bs : List Byte) (i : Nat) (h : i + 4 ≤ bs.length) :
    be (window bs i 4) = (bs.getD i 0).toNat * 2 ^ 24 + (bs.getD (i + 1) 0).toNat * 2 ^ 16 +
      (bs.getD (i + 2) 0).toNat * 2 ^ 8 + (bs.getD (i + 3) 0).toNat := by
  have hbytes : window bs i 4 =
      [bs.getD i 0, bs.getD (i + 1) 0, bs.getD (i + 2) 0, bs.getD (i + 3) 0] := by
    rw [window_succ bs i 3 (by omega), window_succ bs (i + 1) 2 (by omega),
      window_succ bs (i + 2) 1 (by omega), window_succ bs (i + 3) 0 (by omega), window, List.take_zero]
  rw [hbytes]
  simp only [be, List.foldl_cons, List.foldl_nil]
  omega

/-- The shortest digest has 20 bytes and the offset is at most 15, so the window never reaches the last byte (R150). -/
theorem dtOffset_add_three_lt (D : List Byte) (h : 20 ≤ D.length) : dtOffset D + 3 < D.length - 1 := by
  have := dtOffset_lt D
  omega

/-! ### The code -/

theorem dtCode_lt (D : List Byte) (d : Nat) : dtCode D d < 10 ^ d :=
  Nat.mod_lt _ (Nat.pow_pos (by decide))

/-- Ten digits hold every value, because 2^31 ≤ 10^10 (R152). -/
theorem dtCode_ten (D : List Byte) : dtCode D 10 = dtValue D :=
  Nat.mod_eq_of_lt ((dtValue_lt D).trans (by decide))

/-- The digit at 10^9 of a number below 2^31 is at most 2 (R152). -/
theorem bcdDigit_nine_le (c : Nat) (h : c < 2 ^ 31) : bcdDigit c 9 ≤ 2 := by
  unfold bcdDigit
  omega

/-! ### The statement -/

/-- Settles O37: every digest has at least 20 bytes, so the four bytes at the offset are all there, and with ten digits
the modulus exceeds every value. -/
theorem truncationOfADigest : Obligations.TruncationOfADigest := by
  intro alg D d hlen _ _
  have hlong : 20 ≤ D.length := hlen ▸ (digestLength_le alg).1
  have hbefore : dtOffset D + 3 < D.length - 1 := dtOffset_add_three_lt D hlong
  refine ⟨dtOffset_eq D, hbefore, ?_, rfl, dtCode_lt D d, ?_⟩
  · rw [dtValue_eq, be_window_four D _ (by omega)]
  · rintro rfl
    rw [dtCode_ten]
    exact ⟨rfl, bcdDigit_nine_le _ (dtValue_lt D)⟩

end Sys2Proof.Machine

/-! ### The key bytes an HMAC reads (spec/41_hmac.md R171, R175) -/

namespace Sys2Proof.Machine

/-! ### The key operand -/

/-- The key a command uses is the first KEY_LEN bytes of KEYBYTES (R175). -/
theorem keyOperand_eq_take (b : Block) : keyOperand b = (bufferBytes b.key).take b.keyLen.toNat := by
  rw [keyOperand, window, List.drop_zero]

/-- A legal KEY_LEN lies inside KEYBYTES, so the key is KEY_LEN bytes long (R44, R175). -/
theorem keyOperand_length (b : Block) (h : b.keyLen.toNat ≤ 64) :
    (keyOperand b).length = b.keyLen.toNat :=
  window_length _ _ _ (by simpa using h)

/-- K0 is the key the command uses, filled with zeros up to the block size (R171, R175). -/
theorem keyBlock_keyOperand (alg : Alg) (b : Block) (h : b.keyLen.toNat ≤ 64) :
    keyBlock alg (keyOperand b) =
      (bufferBytes b.key).take b.keyLen.toNat ++ zeroBytes (blockLength alg - b.keyLen.toNat) := by
  rw [keyBlock, keyOperand_length b h, keyOperand_eq_take]

/-- A key buffer with the same first KEY_LEN bytes gives the same key (R175). -/
theorem keyOperand_of_key_agrees (b : Block) (k : Buffer)
    (h : ∀ i, i < b.keyLen.toNat → (bufferBytes k)[i]? = (bufferBytes b.key)[i]?) :
    keyOperand { b with key := k } = keyOperand b := by
  rw [keyOperand_eq_take, keyOperand_eq_take]
  refine List.ext_getElem? fun i => ?_
  by_cases hi : i < b.keyLen.toNat
  · rw [List.getElem?_take_of_lt hi, List.getElem?_take_of_lt hi, h i hi]
  · simp [hi]

/-- HMAC sees the KEY words through the key operand only (R173). -/
theorem hmacOfOperands_of_keyOperand_eq (b : Block) (k : Buffer)
    (h : keyOperand { b with key := k } = keyOperand b) :
    hmacOfOperands { b with key := k } = hmacOfOperands b :=
  congrArg (fun K => hmac (selectedAlg b) K (messageOperand b)) h

/-! ### The digest of a run -/

/-- An idle HMAC that passes its checks ends with the HMAC of its operands at acceptance in the digest buffer (R173,
R174, R257). -/
theorem exec_hmac_then_digest (s : State) (hi : busy s.block = false) (hp : Passes s.cfg .hmac s.block) :
    ∃ t, exec .hmac s = .next t ∧
      (coreSteps (latency s.cfg .hmac (selectedAlg s.block)) t.block).digest =
        (writeDigest (hmacOfOperands s.block) s.block).digest := by
  obtain ⟨t, ht, -, hrun⟩ := exec_then_completes .hmac s hi hp
  refine ⟨t, ht, ?_⟩
  rw [hrun, complete_hmac]
  rfl

/-- No check reads the KEY words (R273, R274, R276). -/
theorem Passes.with_key {cfg : Config} {op : Op} {b : Block} (h : Passes cfg op b) (k : Buffer) :
    Passes cfg op { b with key := k } :=
  ⟨h.alg, h.key, h.digits⟩

/-! ### The statement -/

/-- Settles O41: a passing KEY_LEN is at most 64, which fixes K0, and the two runs end in the digest of their operands,
which are equal because the key operand stops at KEY_LEN. -/
theorem keyBytesPastTheLengthAreIgnored : Obligations.KeyBytesPastTheLengthAreIgnored := by
  intro s k hi hp
  refine ⟨keyBlock_keyOperand _ _ (hp.key rfl).2, fun hk => ?_⟩
  obtain ⟨t, ht, htd⟩ := exec_hmac_then_digest s hi hp
  obtain ⟨u, hu, hud⟩ := exec_hmac_then_digest { s with block := { s.block with key := k } } hi (hp.with_key k)
  have hsame : hmacOfOperands { s.block with key := k } = hmacOfOperands s.block :=
    hmacOfOperands_of_keyOperand_eq _ k (keyOperand_of_key_agrees _ k hk)
  refine ⟨t, u, ht, hu, htd.trans (Eq.trans ?_ hud.symm)⟩
  rw [writeDigest_digest, writeDigest_digest, hsame]

end Sys2Proof.Machine

/-! ### The message schedules (spec/42_sha.md R195, R203, R214) -/

namespace Sys2Proof.Machine

/-! ### A schedule grows one word at a time -/

/-- The word computed last stands at the head of a schedule held newest first. -/
theorem extendSchedule_succ_eq_cons {w : Nat} (next : List (BitVec w) → BitVec w) (n : Nat)
    (ws : List (BitVec w)) :
    extendSchedule next (n + 1) ws = next (extendSchedule next n ws) :: extendSchedule next n ws := by
  induction n generalizing ws with
  | zero => rfl
  | succ n ih => exact ih (next ws :: ws)

@[simp] theorem messageSchedule_zero {w : Nat} (next : List (BitVec w) → BitVec w) (block : List (BitVec w)) :
    messageSchedule next 0 block = block :=
  List.reverse_reverse block

/-- A schedule of one word more ends in the next word of the shorter schedule. -/
theorem messageSchedule_succ {w : Nat} (next : List (BitVec w) → BitVec w) (n : Nat) (block : List (BitVec w)) :
    messageSchedule next (n + 1) block =
      messageSchedule next n block ++ [next (messageSchedule next n block).reverse] := by
  simp [messageSchedule, extendSchedule_succ_eq_cons]

@[simp] theorem messageSchedule_length {w : Nat} (next : List (BitVec w) → BitVec w) (n : Nat)
    (block : List (BitVec w)) : (messageSchedule next n block).length = block.length + n := by
  induction n with
  | zero => simp
  | succ n ih => simp [messageSchedule_succ, ih, Nat.add_assoc]

/-- The block stands at the start of its schedule. -/
theorem messageSchedule_take_block {w : Nat} (next : List (BitVec w) → BitVec w) (n : Nat)
    (block : List (BitVec w)) : (messageSchedule next n block).take block.length = block := by
  induction n with
  | zero => simp
  | succ n ih => rw [messageSchedule_succ, List.take_append_of_le_length (by simp), ih]

/-! ### The recurrence -/

/-- Each word after the block is the next word of the words before it. -/
theorem messageSchedule_getD {w : Nat} (next : List (BitVec w) → BitVec w) (n : Nat) (block : List (BitVec w))
    {t : Nat} (hb : block.length ≤ t) (ht : t < block.length + n) :
    (messageSchedule next n block).getD t 0 = next ((messageSchedule next n block).take t).reverse := by
  induction n with
  | zero => omega
  | succ n ih =>
    rw [messageSchedule_succ]
    have hlen : (messageSchedule next n block).length = block.length + n := messageSchedule_length next n block
    obtain hlt | rfl : t < block.length + n ∨ t = block.length + n := by omega
    · rw [List.getD_append _ _ _ _ (by omega), List.take_append_of_le_length (by omega), ih hlt]
    · rw [List.take_left' hlen, List.getD_append_right _ _ _ _ hlen.le, hlen, Nat.sub_self, List.getD_cons_zero]

/-- Among the first t words of a schedule, held newest first, the word k back is W_{t-k}. -/
theorem wordBack_reverse_take {w : Nat} (ws : List (BitVec w)) {t k : Nat} (hk : 0 < k) (hkt : k ≤ t)
    (ht : t ≤ ws.length) : wordBack (ws.take t).reverse k = ws.getD (t - k) 0 := by
  have hlen : (ws.take t).length = t := List.length_take_of_le ht
  rw [wordBack, List.getD_eq_getElem?_getD, List.getElem?_reverse (by omega), hlen,
    show t - 1 - (k - 1) = t - k by omega, List.getElem?_take_of_lt (by omega), ← List.getD_eq_getElem?_getD]

/-! ### The statement -/

/-- What the three hash functions share: the schedule's length, its first words, and each later word from those before
it. -/
theorem messageSchedule_of_block {w : Nat} (next : List (BitVec w) → BitVec w) (n : Nat) {M : List (BitVec w)}
    (hM : M.length = 16) :
    (messageSchedule next n M).length = 16 + n ∧ (messageSchedule next n M).take 16 = M ∧
      ∀ t, 16 ≤ t → t < 16 + n →
        (messageSchedule next n M).getD t 0 = next ((messageSchedule next n M).take t).reverse := by
  rw [← hM]
  exact ⟨messageSchedule_length next n M, messageSchedule_take_block next n M,
    fun t hb ht => messageSchedule_getD next n M hb ht⟩

/-- Settles O44: a schedule grows by one word at a time, computed from the words before it, and those the recurrence
names are at most sixteen back. -/
theorem schedulesMeetTheirRecurrences : Obligations.SchedulesMeetTheirRecurrences := by
  refine ⟨fun M hM => ?_, fun M hM => ?_, fun M hM => ?_⟩
  · obtain ⟨hlen, htake, hrec⟩ := messageSchedule_of_block sha1Next 64 hM
    refine ⟨hlen, htake, fun t hb ht => (hrec t hb ht).trans ?_⟩
    simp (disch := omega) only [sha1Next, wordBack_reverse_take, sha1Schedule]
  · obtain ⟨hlen, htake, hrec⟩ := messageSchedule_of_block sha256Next 48 hM
    refine ⟨hlen, htake, fun t hb ht => (hrec t hb ht).trans ?_⟩
    simp (disch := omega) only [sha256Next, wordBack_reverse_take, sha256Schedule]
  · obtain ⟨hlen, htake, hrec⟩ := messageSchedule_of_block sha512Next 64 hM
    refine ⟨hlen, htake, fun t hb ht => (hrec t hb ht).trans ?_⟩
    simp (disch := omega) only [sha512Next, wordBack_reverse_take, sha512Schedule]

end Sys2Proof.Machine

/-! ### Control: ZEROIZE, illegal command words and register reads (spec/44_control.md R250 to R252) -/

namespace Sys2Proof.Machine

/-! ### STATUS as a number (R252) -/

/-- The four one-bit flags of STATUS fill bits 3:0, each with its own weight (R38 to R41). -/
theorem flagBits_toNat (busyBit doneBit errBit wignBit : Bool) :
    (flagBit busyBit 0 ||| flagBit doneBit 1 ||| flagBit errBit 2 ||| flagBit wignBit 3).toNat =
      busyBit.toNat + 2 * doneBit.toNat + 4 * errBit.toNat + 8 * wignBit.toNat := by
  revert busyBit doneBit errBit wignBit
  decide

/-- A four-bit code at bits 7:4, above four low bits, adds sixteen times its value. -/
theorem or_shiftLeft_four_toNat (low : Word) (code : BitVec 4) (h : low.toNat < 16) :
    (low ||| (code.setWidth 32 <<< 4)).toNat = low.toNat + 16 * code.toNat := by
  have hcode := code.isLt
  have hshift : (code.setWidth 32 <<< 4).toNat = code.toNat <<< 4 := by
    rw [BitVec.toNat_shiftLeft, BitVec.toNat_setWidth, Nat.shiftLeft_eq, Nat.shiftLeft_eq]
    omega
  rw [BitVec.toNat_or, hshift, Nat.or_comm, ← Nat.shiftLeft_add_eq_or_of_lt (by omega), Nat.shiftLeft_eq]
  omega

/-- STATUS reads as BUSY, DONE, ERR, WIGN and ERR_CODE, each with the weight of its place (R38 to R41, R252). -/
theorem statusWord_toNat (b : Block) :
    (statusWord b).toNat = (busy b).toNat + 2 * b.status.done.toNat + 4 * b.status.err.toNat +
      8 * b.status.wign.toNat + 16 * b.status.errCode.toNat := by
  have hflags := flagBits_toNat (busy b) b.status.done b.status.err b.status.wign
  have hlow : (flagBit (busy b) 0 ||| flagBit b.status.done 1 ||| flagBit b.status.err 2 |||
      flagBit b.status.wign 3).toNat < 16 := by
    linarith [Bool.toNat_le (busy b), Bool.toNat_le b.status.done, Bool.toNat_le b.status.err,
      Bool.toNat_le b.status.wign]
  rw [statusWord, or_shiftLeft_four_toNat _ _ hlow, hflags]

/-! ### Register reads (R252) -/

/-- CAPS is one of two constants, by HAS_SHA512 (R32). -/
theorem capsWord_eq (cfg : Config) :
    capsWord cfg = if cfg.hasSha512 then 0x000A4007 else 0x000A4003 := by
  unfold capsWord
  cases cfg.hasSha512 <;> rfl

/-- Settles O10: an offset that is a register's reads as that register, and at the others the map is empty. -/
theorem readAnswersTheRegister : Obligations.ReadAnswersTheRegister := by
  intro s rest off h hlt hal
  have hreg : ∀ r : Reg, off = r.offset → busRead s.cfg s.block off = readRegister s.cfg s.block r := by
    rintro r rfl
    exact busRead_offset s.cfg s.block r
  exact ⟨busRead s.cfg s.block off, step_read s rest off hlt hal h,
    hreg .id, fun hoff => (hreg .caps hoff).trans (capsWord_eq s.cfg), hreg .ctrl, hreg .cmd,
    fun hoff => (congrArg BitVec.toNat (hreg .status hoff)).trans (statusWord_toNat s.block),
    hreg .irqEn, hreg .keyLen, hreg .counterHi, hreg .counterLo, hreg .truncOffset, hreg .truncValue,
    hreg .code, hreg .codeBcdLo, hreg .codeBcdHi, fun i => hreg (.key i), fun i => hreg (.digest i),
    fun hres => busRead_of_regAt_none s.cfg s.block off (regAt_reserved off hres)⟩

/-! ### Illegal command words (R251) -/

/-- The turn of a legal write to CMD: acceptance while idle; while BUSY the word is lost and WIGN is set (R254,
R255). -/
theorem step_write_cmd (s : State) (rest : List Event) (w : Word)
    (h : s.inbox = .host (.write (otpBase s.cfg + Reg.offset .cmd) 4 w) :: rest) :
    step s = .next { s with
      inbox := rest
      reply := .written
      block := if busy s.block then setWign s.block else acceptWord s.cfg w s.block } := by
  rw [step_write s rest _ w (offset_lt .cmd).1 (offset_lt .cmd).2 h, busWrite_eq, regAt_offset]

/-- Acceptance of an ILLEGAL word reports ILLEGAL_COMMAND and changes STATUS only (R251). -/
theorem acceptWord_illegal (cfg : Config) {w : Word} {e : Illegal} (b : Block) (h : decode w = .error e) :
    acceptWord cfg w b = { b with
      status := { done := true, err := true, wign := b.status.wign, errCode := 5 } } := by
  rw [acceptWord, h]
  rfl

/-- Settles O9: while idle the word is accepted, which for an ILLEGAL one is the report in STATUS. -/
theorem illegalWordIsRefused : Obligations.IllegalWordIsRefused := by
  intro s rest w e h hidle hdec
  have hstep := step_write_cmd s rest w h
  rw [hidle, if_neg Bool.false_ne_true, acceptWord_illegal s.cfg s.block hdec] at hstep
  have hpending : s.block.pending = none := (busy_eq_false s.block).1 hidle
  refine ⟨_, hstep, rfl, fun hwign => BitVec.eq_of_toNat_eq ?_⟩
  simp [statusWord_toNat, busy, hpending, hwign]

/-! ### ZEROIZE (R250) -/

/-- A buffer is the zero buffer exactly when each of its registers is zero. -/
theorem eq_zeroBuffer_iff (b : Buffer) : b = zeroBuffer ↔ ∀ i : Fin 16, b[i] = 0 := by
  constructor
  · rintro rfl i
    simp [zeroBuffer]
  · intro h
    refine Vector.ext fun i hi => ?_
    simpa [zeroBuffer] using h ⟨i, hi⟩

/-- Acceptance of ZEROIZE erases, and ends as every command that did not fail does (R250, R255). -/
theorem acceptOf_zeroize (cfg : Config) (b : Block) :
    acceptOf .zeroize cfg b = { zeroiseAll b with status := doneStatus b } := rfl

/-- Erasing a block whose key and results are zero already changes nothing (R250). -/
theorem zeroiseAll_eq_self (b : Block) (hkey : b.key = zeroBuffer) (hlen : b.keyLen = 0)
    (hdigest : b.digest = zeroBuffer) (hoff : b.truncOffset = 0) (hval : b.truncValue = 0)
    (hcode : b.code = 0) (hlo : b.codeBcdLo = 0) (hhi : b.codeBcdHi = 0) : zeroiseAll b = b := by
  cases b
  simp_all [zeroiseAll, zeroiseKey]

/-- Settles O21: while idle ZEROIZE is `zeroise_all()` with the flags of a command that did not fail; while BUSY it is
a CMD write like any other. -/
theorem zeroizeErasesKeyAndResults : Obligations.ZeroizeErasesKeyAndResults := by
  refine ⟨decode_encode .zeroize, fun s hidle => ?_, fun s hbusy => ?_⟩
  · have hpending : s.block.pending = none := (busy_eq_false s.block).1 hidle
    have hzero := (eq_zeroBuffer_iff zeroBuffer).1 rfl
    refine ⟨{ s with block := { zeroiseAll s.block with status := doneStatus s.block } }, ?_, rfl,
      hzero, rfl, hzero, rfl, rfl, rfl, rfl, rfl, rfl, rfl, rfl, rfl, rfl, hpending, rfl,
      fun hwign => BitVec.eq_of_toNat_eq ?_, fun hkey hlen hdigest hoff hval hcode hlo hhi => ?_⟩
    · rw [exec_eq_commandWrite, commandWrite_idle _ s hidle, acceptOf_zeroize]
    · simp [statusWord_toNat, busy, doneStatus, hpending, hwign]
    · rw [zeroiseAll_eq_self s.block ((eq_zeroBuffer_iff _).2 hkey) hlen
        ((eq_zeroBuffer_iff _).2 hdigest) hoff hval hcode hlo hhi]
  · rw [exec_eq_commandWrite, commandWrite_busy _ s hbusy, setWign]

end Sys2Proof.Machine

/-! ### Acceptance: the first failing check and its report (R255, R256, R258, R273 to R277) -/

namespace Sys2Proof.Machine

/-- ALG is refused at 3 in every build, and at 2 in a build without SHA-512 (R273). -/
theorem algLegal_eq_false (cfg : Config) (alg : BitVec 2) :
    algLegal cfg alg = false ↔ alg = 3 ∨ (alg = 2 ∧ cfg.hasSha512 = false) := by
  simp [algLegal, or_iff_not_imp_left]

/-- The order of the checks, for all three commands at once: a command that has no use for the key or for DIGITS
passes over those checks (R255, R277). -/
theorem checksOf_eq (op : Op) (cfg : Config) (b : Block) :
    checksOf op cfg b =
      if algLegal cfg (ctrlAlg b) = false then some .invalidAlg
      else if keyed op = true ∧ b.keyLen.toNat = 0 then some .invalidSecret
      else if keyed op = true ∧ 65 ≤ b.keyLen.toNat then some .keyTooLong
      else if truncates op = true ∧ (ctrlDigits b = 0 ∨ 11 ≤ ctrlDigits b) then some .invalidDigits
      else none := by
  have halg : algError cfg b = if algLegal cfg (ctrlAlg b) = false then some .invalidAlg else none := by
    unfold algError
    cases algLegal cfg (ctrlAlg b) <;> rfl
  have hlong : keyLengthError b = if 65 ≤ b.keyLen.toNat then some .keyTooLong else none := rfl
  have hdigits : digitsError b =
      if ctrlDigits b = 0 ∨ 11 ≤ ctrlDigits b then some .invalidDigits else none :=
    if_congr (or_congr Nat.lt_one_iff Iff.rfl) rfl rfl
  have orElse_if : ∀ (p : Prop) [Decidable p] (e : CmdError) (rest : Option CmdError),
      ((if p then some e else none) <|> rest) = if p then some e else rest := by
    intro p _ e rest
    split <;> simp
  cases op with
  | hmac => simp [checksOf, hmacChecks, halg, secretError, hlong, orElse_if, keyed, truncates]
  | trunc => simp [checksOf, truncChecks, halg, hdigits, orElse_if, keyed, truncates]
  | hotp => simp [checksOf, hotpChecks, halg, secretError, hlong, hdigits, orElse_if, keyed, truncates]

/-- Error completion while idle: the report in STATUS, and the key lost for a keyed command without KEEP_KEY
(R256, R258). -/
theorem exec_reports (op : Op) (s : State) (e : CmdError) (hidle : busy s.block = false)
    (hfail : checksOf op s.cfg s.block = some e) :
    exec (commandOf op) s = .next { s with
      block := { s.block with
        status := { done := true, err := true, wign := s.block.status.wign, errCode := errorCode e }
        key := if keyed op && !ctrlKeepKey s.block then zeroBuffer else s.block.key
        keyLen := if keyed op && !ctrlKeepKey s.block then 0 else s.block.keyLen } } := by
  have hkeep : ctrlKeepKey (reportError e (clearCommandFlags s.block)) = ctrlKeepKey s.block := rfl
  rw [exec_commandOf, commandWrite_idle _ s hidle, hfail]
  simp only [acceptCommand, endInError, endKeyedCommand, hkeep]
  cases keyed op <;> cases ctrlKeepKey s.block <;> rfl

/-- Settles O23: each failing clause fixes the branch of `checksOf_eq`, whose error is reported, and the last clause
leaves it no branch but `none`. -/
theorem firstFailingCheckIsReported : Obligations.FirstFailingCheckIsReported := by
  intro s op hidle badAlg noKey longKey badDigits
  have hchecks : checksOf op s.cfg s.block =
      if badAlg then some .invalidAlg else if noKey then some .invalidSecret
      else if longKey then some .keyTooLong else if badDigits then some .invalidDigits else none := by
    rw [checksOf_eq]
    exact if_congr (algLegal_eq_false s.cfg (ctrlAlg s.block)) rfl rfl
  refine ⟨fun code hcode => ?_, fun ⟨halg, hnoKey, hlong, hdigits⟩ => ?_⟩
  · obtain ⟨halg, rfl⟩ | ⟨halg, hnoKey, rfl⟩ | ⟨halg, ⟨hkeyed, hlen⟩, rfl⟩ |
      ⟨halg, hnoKey, hlong, hdigits, rfl⟩ := hcode
    · exact exec_reports op s .invalidAlg hidle (by rw [hchecks, if_pos halg])
    · exact exec_reports op s .invalidSecret hidle (by rw [hchecks, if_neg halg, if_pos hnoKey])
    · have hnoKey : ¬noKey := fun ⟨_, hzero⟩ => by omega
      exact exec_reports op s .keyTooLong hidle
        (by rw [hchecks, if_neg halg, if_neg hnoKey, if_pos ⟨hkeyed, hlen⟩])
    · exact exec_reports op s .invalidDigits hidle
        (by rw [hchecks, if_neg halg, if_neg hnoKey, if_neg hlong, if_pos hdigits])
  · refine exec_accepts op s hidle ((checksOf_none s.cfg op s.block).1 ?_)
    rw [hchecks, if_neg halg, if_neg hnoKey, if_neg hlong, if_neg hdigits]

end Sys2Proof.Machine

/-! ### The reset state (spec/70_reset_and_hazards.md R301) -/

namespace Sys2Proof.Machine

/-- No word of the key is left after reset (R301). -/
theorem reset_key (i : Fin 16) : Block.reset.key[i] = 0 :=
  (eq_zeroBuffer_iff Block.reset.key).1 rfl i

/-- No word of the digest is left after reset (R301). -/
theorem reset_digest (i : Fin 16) : Block.reset.digest[i] = 0 :=
  (eq_zeroBuffer_iff Block.reset.digest).1 rfl i

/-- STATUS after reset: idle, every flag clear and no error code (R301). -/
theorem statusWord_reset : statusWord Block.reset = 0 := by decide

/-- The interrupt output is deasserted after reset (R280, R301). -/
theorem irq_reset : irq Block.reset = false := by decide

/-- Settles O1: the turn puts the whole block at `Block.reset`, ID and CAPS are constants read at their own offsets,
and the other rows of the table are fields of `Block.reset` or read off it. -/
theorem resetLeavesTheResetState : Obligations.ResetLeavesTheResetState := by
  intro s rest h
  have hid : busRead s.cfg Block.reset 0x000 = 0x4F545048 := busRead_offset s.cfg Block.reset .id
  have hcaps : busRead s.cfg Block.reset 0x004 =
      (if s.cfg.hasSha512 then 0x000A4007 else 0x000A4003) :=
    (busRead_offset s.cfg Block.reset .caps).trans (capsWord_eq s.cfg)
  exact ⟨_, step_reset s rest h, rfl, rfl, hid, hcaps, rfl, statusWord_reset, rfl, rfl, reset_key,
    rfl, rfl, rfl, rfl, rfl, rfl, rfl, reset_digest, rfl, rfl, irq_reset⟩

end Sys2Proof.Machine

/-! ### The invariant of the reachable states (R54, R36, R42, R44, R47, R52) -/

namespace Sys2Proof.Machine

/-! ### The invariant in two parts -/

/-- The part of the invariant that does not ask whether a command is pending (R36, R42, R44, R47, R54, R271). -/
structure RegistersInv (b : Block) : Prop where
  ctrlReserved : b.ctrl &&& 0x00010F03 = b.ctrl
  irqEnReserved : b.irqEn &&& 0x3 = b.irqEn
  keyLenReserved : b.keyLen &&& 0x7F = b.keyLen
  noErrorCode : b.status.err = false → b.status.errCode = 0
  errorCodeNamed : b.status.err = true → 1 ≤ b.status.errCode.toNat ∧ b.status.errCode.toNat ≤ 5
  offsetBound : b.truncOffset.toNat ≤ 15
  valueBound : b.truncValue.toNat < 2 ^ 31
  codeBound : b.code.toNat ≤ b.truncValue.toNat
  bcdLoDigits : b.codeBcdLo.toNat = bcdLo b.code.toNat
  bcdHiDigits : b.codeBcdHi.toNat = bcdHi b.code.toNat

/-- What the invariant says of a pending command: R54's flags, its steps left, and the checks it passed (R52, R255). -/
structure RunningInv (cfg : Config) (op : Op) (b : Block) : Prop where
  flags : b.status.done = false ∧ b.status.err = false
  steps : 1 ≤ b.left ∧ b.left ≤ latency cfg op (selectedAlg b)
  passes : Passes cfg op b

/-- The invariant is its two parts, and no CORE step left while idle (R301). -/
theorem Block.inv_iff (cfg : Config) (b : Block) :
    b.Inv cfg ↔ RegistersInv b ∧ (b.pending = none → b.left = 0) ∧
      ∀ op, b.pending = some op → RunningInv cfg op b := by
  constructor
  · intro h
    refine ⟨{ h with }, h.idleLeft, fun op hp => ⟨h.busyFlags ?_, h.busyLeft op hp,
      ⟨h.busyAlg op hp, h.busyKey op hp, h.busyDigits op hp⟩⟩⟩
    exact (busy_eq_true b).2 ⟨op, hp⟩
  · rintro ⟨h, hidle, hrun⟩
    refine { h with
      idleLeft := hidle
      busyFlags := fun hb => ?_
      busyLeft := fun op hp => (hrun op hp).steps
      busyAlg := fun op hp => (hrun op hp).passes.alg
      busyKey := fun op hp => (hrun op hp).passes.key
      busyDigits := fun op hp => (hrun op hp).passes.digits }
    obtain ⟨op, hp⟩ := (busy_eq_true b).1 hb
    exact (hrun op hp).flags

/-- With PENDING = NONE the invariant is that of the registers, with no CORE step left (R301). -/
theorem RegistersInv.inv_of_idle {cfg : Config} {b : Block} (h : RegistersInv b) (hp : b.pending = none)
    (hl : b.left = 0) : b.Inv cfg :=
  (Block.inv_iff cfg b).2 ⟨h, fun _ => hl, fun op hop => by simp [hp] at hop⟩

/-- With a command pending the invariant is that of the registers and of that command. -/
theorem RegistersInv.inv_of_pending {cfg : Config} {op : Op} {b : Block} (h : RegistersInv b)
    (hp : b.pending = some op) (hrun : RunningInv cfg op b) : b.Inv cfg := by
  refine (Block.inv_iff cfg b).2 ⟨h, fun hn => by simp [hp] at hn, fun op' hop => ?_⟩
  obtain rfl : op = op' := by simpa [hp] using hop
  exact hrun

/-! ### The registers' part, under each operation -/

theorem registersInv_reset : RegistersInv Block.reset := by
  constructor <;> decide

/-- Every error has one of the codes 1 to 5 (R271). -/
theorem errorCode_bounds (e : CmdError) : 1 ≤ (errorCode e).toNat ∧ (errorCode e).toNat ≤ 5 := by
  cases e <;> decide

@[simp] theorem endInError_pending (k : Bool) (e : CmdError) (b : Block) :
    (endInError k e b).pending = b.pending := by
  unfold endInError
  split <;> simp

@[simp] theorem endInError_left (k : Bool) (e : CmdError) (b : Block) : (endInError k e b).left = b.left := by
  unfold endInError
  split <;> simp

namespace RegistersInv

variable {b : Block} (h : RegistersInv b)
include h

theorem setDone : RegistersInv (setDone b) := { h with }

theorem clearCommandFlags : RegistersInv (clearCommandFlags b) :=
  { h with noErrorCode := fun _ => rfl, errorCodeNamed := fun he => Bool.noConfusion he }

theorem reportError (e : CmdError) : RegistersInv (reportError e b) :=
  { h with
    noErrorCode := fun he => Bool.noConfusion he
    errorCodeNamed := fun _ => errorCode_bounds e }

theorem zeroiseKey : RegistersInv (zeroiseKey b) := { h with keyLenReserved := registersInv_reset.keyLenReserved }

theorem endKeyedCommand : RegistersInv (endKeyedCommand b) := by
  unfold Machine.endKeyedCommand
  split
  · exact h
  · exact h.zeroiseKey

theorem endInError (k : Bool) (e : CmdError) : RegistersInv (endInError k e b) := by
  unfold Machine.endInError
  split
  · exact (h.reportError e).endKeyedCommand
  · exact h.reportError e

/-- `zeroise_all()` leaves the key and the results as they are after reset (R250, R301). -/
theorem zeroiseAll : RegistersInv (zeroiseAll b) :=
  { registersInv_reset with
    ctrlReserved := h.ctrlReserved
    irqEnReserved := h.irqEnReserved
    noErrorCode := h.noErrorCode
    errorCodeNamed := h.errorCodeNamed }

/-- A truncation fills the result registers as R54 and R47 relate them. -/
theorem writeTruncation (d : List Byte) (n : Nat) : RegistersInv (writeTruncation d n b) :=
  { h with
    offsetBound := by rw [toNat_writeTruncation_offset]; exact Nat.le_of_lt_succ (dtOffset_lt d)
    valueBound := by rw [toNat_writeTruncation_value]; exact dtValue_lt d
    codeBound := by
      rw [toNat_writeTruncation_code, toNat_writeTruncation_value]
      exact dtCode_le d n
    bcdLoDigits := by rw [toNat_writeTruncation_bcdLo, toNat_writeTruncation_code]
    bcdHiDigits := by rw [toNat_writeTruncation_bcdHi, toNat_writeTruncation_code] }

theorem writeDigest (d : List Byte) : RegistersInv (writeDigest d b) := { h with }

theorem complete (op : Op) : RegistersInv (complete op b) := by
  have hresults : RegistersInv (completeResults op b) := by
    cases op with
    | hmac => exact (h.writeDigest _).endKeyedCommand
    | trunc => exact h.writeTruncation _ _
    | hotp => exact ((h.writeDigest _).writeTruncation _ _).endKeyedCommand
  exact { hresults with }

/-- W1C clears ERR only together with ERR_CODE (R41). -/
theorem statusW1C (v : Word) : RegistersInv (statusW1C v b) := by
  have herr : (Machine.statusW1C v b).status.err = (b.status.err && !v.getLsbD 2) := rfl
  have hcode : (Machine.statusW1C v b).status.errCode = if v.getLsbD 2 then 0 else b.status.errCode := rfl
  refine { h with noErrorCode := ?_, errorCodeNamed := ?_ } <;> rw [herr, hcode] <;> cases v.getLsbD 2
  · simpa using h.noErrorCode
  · simp
  · simpa using h.errorCodeNamed
  · simp

/-- A store keeps the reserved bits at zero: it masks the word written (R36, R42, R44). -/
theorem storeRegister (r : Reg) (v : Word) : RegistersInv (storeRegister r v b) := by
  have mask_idem : ∀ m : Word, v &&& m &&& m = v &&& m := fun m => by rw [BitVec.and_assoc, BitVec.and_self]
  cases r with
  | ctrl => exact { h with ctrlReserved := mask_idem _ }
  | irqEn => exact { h with irqEnReserved := mask_idem _ }
  | keyLen => exact { h with keyLenReserved := mask_idem _ }
  | status => exact h.statusW1C v
  | _ => exact { h with }

end RegistersInv

/-! ### The whole invariant, under each thing a step can do -/

theorem Block.inv_reset (cfg : Config) : Block.reset.Inv cfg :=
  registersInv_reset.inv_of_idle rfl rfl

section
variable {cfg : Config} {b : Block} (h : b.Inv cfg)
include h

theorem Block.Inv.registers : RegistersInv b := by
  obtain ⟨hregs, -, -⟩ := (Block.inv_iff cfg b).1 h
  exact hregs

theorem Block.Inv.running {op : Op} (hp : b.pending = some op) : RunningInv cfg op b := by
  obtain ⟨-, -, hrun⟩ := (Block.inv_iff cfg b).1 h
  exact hrun op hp

theorem Block.Inv.setWign : (setWign b).Inv cfg := { h with }

/-- A CORE step counts down above 1, and completes at 1 (R257, R320). -/
theorem Block.Inv.coreStep : (coreStep b).Inv cfg := by
  obtain ⟨-, heq⟩ | ⟨op, hp, hl, heq⟩ | ⟨op, -, -, heq⟩ := coreStep_cases b <;> rw [heq]
  · exact h
  · have hrun := h.running hp
    refine RegistersInv.inv_of_pending { h.registers with } hp ⟨hrun.flags, ?_, { hrun.passes with }⟩
    have hle : b.left ≤ latency cfg op (selectedAlg b) := hrun.steps.2
    exact ⟨Nat.le_sub_one_of_lt hl, (Nat.sub_le _ _).trans hle⟩
  · exact (h.registers.complete op).inv_of_idle (complete_pending op b) (by cases op <;> rfl)

/-- A write to a register leaves a pending command's operands alone: those registers are IDLE_ONLY (R254). -/
theorem Block.Inv.writeRegister (r : Reg) (v : Word) : (writeRegister r v b).Inv cfg := by
  cases hp : b.pending with
  | none =>
    have hidle : busy b = false := (busy_eq_false b).2 hp
    have hstore : Machine.writeRegister r v b = storeRegister r v b := by simp [Machine.writeRegister, hidle]
    rw [hstore]
    refine (h.registers.storeRegister r v).inv_of_idle ?_ ?_
    · cases r <;> exact hp
    · cases r <;> exact h.idleLeft hp
  | some op =>
    obtain heq | ⟨heq, hr⟩ := writeRegister_busy r v b ((busy_eq_true b).2 ⟨op, hp⟩) <;> rw [heq]
    · exact h.setWign
    · have hrun := h.running hp
      refine (h.registers.storeRegister r v).inv_of_pending (op := op) ?_ ?_
      · cases r <;> exact hp
      · cases r with
        | status =>
          refine ⟨?_, hrun.steps, { hrun.passes with }⟩
          show (b.status.done && _) = false ∧ (b.status.err && _) = false
          simp [hrun.flags]
        | ctrl | cmd | keyLen | counterHi | counterLo | key i | digest i => exact Bool.noConfusion hr
        | _ => exact ⟨hrun.flags, hrun.steps, { hrun.passes with }⟩

/-- Acceptance of HMAC, TRUNC or HOTP while idle starts it with LAT(op, alg) steps left, or ends it in its error
(R255, R256). -/
theorem Block.Inv.acceptCommand (hp : b.pending = none) (op : Op) :
    (acceptCommand cfg op (checksOf op cfg b) b).Inv cfg := by
  have hclear := h.registers.clearCommandFlags
  unfold Machine.acceptCommand
  cases hc : checksOf op cfg b with
  | none =>
    have hpass := (checksOf_none cfg op b).1 hc
    refine RegistersInv.inv_of_pending (op := op) { hclear with } rfl
      ⟨⟨rfl, rfl⟩, ⟨latency_pos _ _ _, le_rfl⟩, ?_⟩
    exact { hpass with }
  | some e =>
    exact (hclear.endInError (keyed op) e).inv_of_idle (by simp [hp]) (by simp [h.idleLeft hp])

/-- Acceptance of any word while idle (R251, R255). -/
theorem Block.Inv.acceptWord (hp : b.pending = none) (w : Word) : (acceptWord cfg w b).Inv cfg := by
  unfold Machine.acceptWord
  cases decode w with
  | error e => exact (h.registers.clearCommandFlags.endInError false _).inv_of_idle hp (h.idleLeft hp)
  | ok i =>
    cases i with
    | hmac => exact h.acceptCommand hp .hmac
    | trunc => exact h.acceptCommand hp .trunc
    | hotp => exact h.acceptCommand hp .hotp
    | zeroize => exact h.registers.clearCommandFlags.zeroiseAll.setDone.inv_of_idle hp (h.idleLeft hp)

end

/-! ### The statements -/

/-- Settles O3: each of the things `step_cases` allows keeps the invariant. -/
theorem everyStepKeepsInvariant : Obligations.EveryStepKeepsInvariant := by
  intro s t hinv hstep
  have h : s.block.Inv s.cfg := hinv
  obtain ⟨hcfg, -, hcases⟩ := step_cases s t hstep
  show t.block.Inv t.cfg
  rw [hcfg]
  obtain ⟨-, hb, -⟩ | ⟨-, hb, -⟩ | ⟨-, hb⟩ | ⟨_, v, r, -, -, -, -, -, hb, -⟩ |
    ⟨_, v, -, -, -, -, -, hb⟩ := hcases <;> rw [hb]
  · exact h.coreStep
  · exact Block.inv_reset s.cfg
  · exact h
  · exact h.writeRegister r v
  · split
    · exact h.setWign
    · rename_i hidle
      exact h.acceptWord ((busy_eq_false _).1 (Bool.eq_false_of_not_eq_true hidle)) v

/-- Settles O2: with PENDING = NONE only the registers' own relations are left, and they hold of R301's values. -/
theorem resetMeetsInvariant : Obligations.ResetMeetsInvariant :=
  fun cfg => Block.inv_reset cfg

end Sys2Proof.Machine

/-! ### The turn of one agent: when it faults, and what it does to the block (R15, R90 to R94, R252 to R257) -/

namespace Sys2Proof.Machine

/-! ### A turn in terms of the build and the block -/

/-- The bus error of an access to the window of illegal width or alignment (R94). -/
def accessFault (cfg : Config) (addr width : Nat) : Option Fault :=
  if inWindow cfg addr = true ∧ accessLegal (addr - otpBase cfg) width = false then
    some (.busError (addr - otpBase cfg) width)
  else none

/-- The fault of a turn: only an access has one. -/
def turnFault (cfg : Config) : Event → Option Fault
  | .host (.read addr width) => accessFault cfg addr width
  | .host (.write addr width _) => accessFault cfg addr width
  | .core => none
  | .reset => none

/-- What a legal write does to the block (R253 to R255). -/
def blockWrite (cfg : Config) (off : Nat) (v : Word) (b : Block) : Block :=
  match regAt off with
  | none => b
  | some r =>
    if r = .cmd then if busy b then setWign b else acceptWord cfg v b
    else writeRegister r v b

/-- What a turn that does not fault does to the block (R15). -/
def blockTurn (cfg : Config) : Event → Block → Block
  | .host (.read _ _), b => b
  | .host (.write addr _ v), b => if inWindow cfg addr then blockWrite cfg (addr - otpBase cfg) v b else b
  | .core, b => coreStep b
  | .reset, _ => Block.reset

theorem busWrite_eq_blockWrite (off : Nat) (v : Word) (s : State) :
    busWrite off v s = .next { s with block := blockWrite s.cfg off v s.block } := by
  rw [busWrite_eq]
  unfold blockWrite
  cases regAt off with
  | none => rfl
  | some r => cases r <;> rfl

/-- A turn faults with `turnFault`, or goes on with `blockTurn` of the block; neither asks for anything else. -/
theorem agentStep_fault_or_next (e : Event) (s : State) :
    (∃ f, turnFault s.cfg e = some f ∧ agentStep e s = .fault f) ∨
    (turnFault s.cfg e = none ∧
      ∃ reply, agentStep e s = .next { s with block := blockTurn s.cfg e s.block, reply := reply }) := by
  cases e with
  | core => exact .inr ⟨rfl, _, rfl⟩
  | reset => exact .inr ⟨rfl, _, rfl⟩
  | host a =>
    cases a with
    | read addr width =>
      simp only [turnFault, accessFault, agentStep, hostStep, blockTurn]
      cases inWindow s.cfg addr with
      | false => exact .inr ⟨rfl, _, rfl⟩
      | true =>
        cases accessLegal (addr - otpBase s.cfg) width with
        | false => exact .inl ⟨_, rfl, rfl⟩
        | true => exact .inr ⟨rfl, _, rfl⟩
    | write addr width v =>
      simp only [turnFault, accessFault, agentStep, hostStep, blockTurn, busWrite_eq_blockWrite]
      cases inWindow s.cfg addr with
      | false => exact .inr ⟨rfl, _, rfl⟩
      | true =>
        cases accessLegal (addr - otpBase s.cfg) width with
        | false => exact .inl ⟨_, rfl, rfl⟩
        | true => exact .inr ⟨rfl, _, rfl⟩

/-- The turn a step takes: the first one waiting, or the CORE's (R15, R320). -/
def nextTurn (s : State) : Event :=
  s.inbox.headD .core

theorem step_eq_agentStep (s : State) : step s = agentStep (nextTurn s) { s with inbox := s.inbox.tail } := by
  obtain ⟨cfg, b, inbox, reply⟩ := s
  cases inbox <;> rfl

/-- A step, by the turn it takes. -/
theorem step_fault_or_next (s : State) :
    (∃ f, turnFault s.cfg (nextTurn s) = some f ∧ step s = .fault f) ∨
    (turnFault s.cfg (nextTurn s) = none ∧
      ∃ reply, step s = .next ⟨s.cfg, blockTurn s.cfg (nextTurn s) s.block, s.inbox.tail, reply⟩) := by
  rw [step_eq_agentStep]
  exact agentStep_fault_or_next (nextTurn s) { s with inbox := s.inbox.tail }

/-! ### Which turns fault (R94, R278) -/

theorem accessFault_eq_some_iff (cfg : Config) (addr width : Nat) (f : Fault) :
    accessFault cfg addr width = some f ↔
      ∃ off, off < 4096 ∧ ¬(width = 4 ∧ off % 4 = 0) ∧ f = .busError off width ∧
        addr = otpBase cfg + off := by
  have hillegal : ∀ off, accessLegal off width = false ↔ ¬(width = 4 ∧ off % 4 = 0) := fun off => by
    rw [← accessLegal_iff, Bool.not_eq_true]
  unfold accessFault
  constructor
  · intro h
    split at h
    · rename_i hacc
      obtain ⟨hw, hl⟩ := hacc
      obtain ⟨hbase, hlt⟩ := (inWindow_iff cfg addr).1 hw
      exact ⟨addr - otpBase cfg, by omega, (hillegal _).1 hl, (Option.some.inj h).symm, by omega⟩
    · cases h
  · rintro ⟨off, hlt, hl, rfl, rfl⟩
    rw [Nat.add_sub_cancel_left, if_pos ⟨(inWindow_base cfg off).2 hlt, (hillegal off).2 hl⟩]

/-- A step faults exactly when a turn is waiting and that turn faults. -/
theorem step_eq_fault_iff (s : State) (f : Fault) :
    step s = .fault f ↔ ∃ e rest, s.inbox = e :: rest ∧ turnFault s.cfg e = some f := by
  have hturn : step s = .fault f ↔ turnFault s.cfg (nextTurn s) = some f := by
    obtain ⟨g, hg, hs⟩ | ⟨hnone, _, hs⟩ := step_fault_or_next s
    · simp [hg, hs]
    · simp [hnone, hs]
  rw [hturn, nextTurn]
  cases s.inbox with
  | nil => simp [turnFault]
  | cons e rest => simp

/-- Settles O16: only `turnFault` makes a step fault, and it answers for the accesses R94 names. -/
theorem onlyIllegalAccessesFault : Obligations.OnlyIllegalAccessesFault := by
  refine ⟨fun s f => ?_, fun s r hs => ?_⟩
  · rw [step_eq_fault_iff]
    constructor
    · rintro ⟨e, rest, hi, hf⟩
      cases e with
      | core => cases hf
      | reset => cases hf
      | host a =>
        cases a with
        | read addr width =>
          obtain ⟨off, hlt, hl, rfl, rfl⟩ := (accessFault_eq_some_iff _ _ _ _).1 hf
          exact ⟨rest, off, width, hlt, hl, rfl, .inl hi⟩
        | write addr width v =>
          obtain ⟨off, hlt, hl, rfl, rfl⟩ := (accessFault_eq_some_iff _ _ _ _).1 hf
          exact ⟨rest, off, width, hlt, hl, rfl, .inr ⟨v, hi⟩⟩
    · rintro ⟨rest, off, width, hlt, hl, rfl, hi | ⟨v, hi⟩⟩
      · exact ⟨_, rest, hi, (accessFault_eq_some_iff _ _ _ _).2 ⟨off, hlt, hl, rfl, rfl⟩⟩
      · exact ⟨_, rest, hi, (accessFault_eq_some_iff _ _ _ _).2 ⟨off, hlt, hl, rfl, rfl⟩⟩
  · obtain ⟨f, -, hf⟩ | ⟨-, reply, hn⟩ := step_fault_or_next s
    · simp [hf] at hs
    · simp [hn] at hs

/-! ### Accesses that begin outside the window (R91) -/

/-- Settles O17: the address alone says that the access is not the block's. -/
theorem accessOutsideTheWindowIsNotSeen : Obligations.AccessOutsideTheWindowIsNotSeen := by
  intro s rest addr width v hout h
  have hw : inWindow s.cfg addr = false := by
    rw [← Bool.not_eq_true, inWindow_iff]
    omega
  obtain h | h := h <;> rw [step_host s rest _ h] <;> simp [hostStep, hw]

/-! ### WIGN under a turn (R41, R254, R279) -/

/-- Acceptance of a word leaves WIGN (R255, R256). -/
@[simp] theorem acceptWord_wign (cfg : Config) (w : Word) (b : Block) :
    (acceptWord cfg w b).status.wign = b.status.wign := by
  have haccept : ∀ op e, (acceptCommand cfg op e b).status.wign = b.status.wign := fun op e => by
    obtain ⟨-, -, -, -, -, -, -, -, -, -, hw⟩ := acceptCommand_frame cfg op e b
    exact hw
  unfold acceptWord
  cases decode w with
  | error e => rfl
  | ok i =>
    cases i with
    | zeroize => rfl
    | _ => exact haccept _ _

/-- No CORE step changes WIGN. -/
@[simp] theorem coreStep_wign (b : Block) : (coreStep b).status.wign = b.status.wign := by
  obtain ⟨-, h⟩ | ⟨op, -, -, h⟩ | ⟨op, -, -, h⟩ := coreStep_cases b <;> rw [h]
  rw [complete_status]

/-- A store sets WIGN in no case, and clears it only in STATUS by bit 3 of the word (R41). -/
theorem storeRegister_wign (r : Reg) (v : Word) (b : Block) :
    (storeRegister r v b).status.wign = (b.status.wign && !(r == .status && v.getLsbD 3)) := by
  cases r with
  | status => rfl
  | _ => exact (Bool.and_true _).symm

/-- A dutiful turn is legal (R93, R324). -/
theorem turnFault_of_dutiful (s : State) (e : Event) (h : dutiful s e) : turnFault s.cfg e = none := by
  cases e with
  | core => rfl
  | reset => rfl
  | host a =>
    cases a with
    | read addr width => exact if_neg fun ⟨hw, hl⟩ => by simp [h hw] at hl
    | write addr width v => exact if_neg fun ⟨hw, hl⟩ => by simp [(h hw).1] at hl

/-- A legal write that keeps the duty of the IDLE_ONLY registers does not set WIGN (R254, R324). -/
theorem blockWrite_wign (cfg : Config) (off : Nat) (v : Word) (b : Block)
    (hduty : ∀ r, regAt off = some r → idleOnly r = true → busy b = false) (hw : b.status.wign = false) :
    (blockWrite cfg off v b).status.wign = false := by
  unfold blockWrite
  cases hr : regAt off with
  | none => exact hw
  | some r =>
    by_cases hc : r = .cmd
    · subst hc
      simp [hduty .cmd hr rfl, hw]
    · have hstore : writeRegister r v b = storeRegister r v b := by
        cases hi : idleOnly r with
        | false => simp [writeRegister, hi]
        | true => simp [writeRegister, hduty r hr hi]
      simp [hc, hstore, storeRegister_wign, hw]

/-- Settles O46: a dutiful turn does not fault, and the only writes that set WIGN are those the duties rule out. -/
theorem dutifulHostLosesNoWrite : Obligations.DutifulHostLosesNoWrite := by
  intro s e rest hi hd hw
  have hturn : nextTurn s = e := by simp [nextTurn, hi]
  obtain ⟨f, hf, -⟩ | ⟨-, reply, hs⟩ := step_fault_or_next s
  · rw [hturn, turnFault_of_dutiful s e hd] at hf
    cases hf
  · refine ⟨_, hs, by simp [hi], ?_⟩
    rw [hturn]
    cases e with
    | core => exact (coreStep_wign s.block).trans hw
    | reset => rfl
    | host a =>
      cases a with
      | read addr width => exact hw
      | write addr width v =>
        simp only [blockTurn]
        split
        · rename_i hwin
          exact blockWrite_wign _ _ _ _ (hd hwin).2 hw
        · exact hw

end Sys2Proof.Machine

/-! ### What timing and reads may not depend on (spec/10_state.md R43; spec/70_reset_and_hazards.md R322) -/

namespace Sys2Proof.Machine

/-! ### A block without its data -/

/-- The block with the key words, the counter, the digest and the results at zero: what R322 lets the timing depend
on, and nothing else. -/
def eraseData (b : Block) : Block :=
  { b with
    counterHi := 0
    counterLo := 0
    truncOffset := 0
    truncValue := 0
    code := 0
    codeBcdLo := 0
    codeBcdHi := 0
    key := zeroBuffer
    digest := zeroBuffer }

/-- `SameControl` in terms of `eraseData`. -/
theorem sameControl_iff (s t : State) :
    SameControl s t ↔ s.cfg = t.cfg ∧ eraseData s.block = eraseData t.block ∧
      List.Forall₂ (SameTurn s.cfg) s.inbox t.inbox := by
  constructor
  · rintro ⟨hcfg, hctrl, hstatus, hirq, hlen, hpend, hleft, hin⟩
    exact ⟨hcfg, by simp [eraseData, hctrl, hstatus, hirq, hlen, hpend, hleft], hin⟩
  · rintro ⟨hcfg, hb, hin⟩
    simp only [eraseData, Block.mk.injEq] at hb
    obtain ⟨hctrl, hstatus, hirq, hlen, -, -, -, -, -, -, -, -, -, hpend, hleft⟩ := hb
    exact ⟨hcfg, hctrl, hstatus, hirq, hlen, hpend, hleft, hin⟩

/-! ### Every operation commutes with erasing the data -/

theorem eraseData_endKeyedCommand (b : Block) :
    eraseData (endKeyedCommand b) = eraseData (endKeyedCommand (eraseData b)) := by
  have hkeep : ctrlKeepKey (eraseData b) = ctrlKeepKey b := rfl
  unfold endKeyedCommand
  rw [hkeep]
  cases ctrlKeepKey b <;> rfl

/-- Which block a completion leaves depends on the data only in the data: the key is gone or kept by KEEP_KEY. -/
theorem eraseData_complete (op : Op) (b : Block) :
    eraseData (complete op b) = eraseData (complete op (eraseData b)) := by
  have hkeep : ctrlKeepKey (eraseData b) = ctrlKeepKey b := rfl
  cases op with
  | hmac => rw [complete_hmac, complete_hmac, hkeep]; rfl
  | trunc => rfl
  | hotp => rw [complete_hotp, complete_hotp, hkeep]; rfl

theorem eraseData_coreStep (b : Block) : eraseData (coreStep b) = eraseData (coreStep (eraseData b)) := by
  have hp : (eraseData b).pending = b.pending := rfl
  have hl : (eraseData b).left = b.left := rfl
  unfold coreStep
  rw [hp, hl]
  cases b.pending with
  | none => rfl
  | some op =>
    by_cases hlast : b.left ≤ 1
    · simp only [if_pos hlast]
      exact eraseData_complete op b
    · simp only [if_neg hlast]
      rfl

theorem eraseData_acceptCommand (cfg : Config) (op : Op) (e : Option CmdError) (b : Block) :
    eraseData (acceptCommand cfg op e b) = eraseData (acceptCommand cfg op e (eraseData b)) := by
  cases e with
  | none => rfl
  | some e =>
    simp only [acceptCommand, endInError]
    cases keyed op with
    | false => rfl
    | true => exact eraseData_endKeyedCommand (reportError e (clearCommandFlags b))

/-- Acceptance of a word: the checks read CTRL and KEY_LEN only (R255). -/
theorem eraseData_acceptWord (cfg : Config) (w : Word) (b : Block) :
    eraseData (acceptWord cfg w b) = eraseData (acceptWord cfg w (eraseData b)) := by
  unfold acceptWord
  cases decode w with
  | error e => rfl
  | ok i =>
    cases i with
    | hmac => exact eraseData_acceptCommand cfg .hmac (hmacChecks cfg b) b
    | trunc => exact eraseData_acceptCommand cfg .trunc (truncChecks cfg b) b
    | hotp => exact eraseData_acceptCommand cfg .hotp (hotpChecks cfg b) b
    | zeroize => rfl

theorem eraseData_writeRegister (r : Reg) (v : Word) (b : Block) :
    eraseData (writeRegister r v b) = eraseData (writeRegister r v (eraseData b)) := by
  have hbusy : busy (eraseData b) = busy b := rfl
  unfold writeRegister
  rw [hbusy]
  split
  · rfl
  · cases r <;> rfl

/-- The word written to a data register is data. -/
theorem eraseData_writeRegister_data (r : Reg) (v v' : Word) (b : Block) (hr : dataRegister r = true) :
    eraseData (writeRegister r v b) = eraseData (writeRegister r v' b) := by
  unfold writeRegister
  split
  · rfl
  · cases r with
    | key i | digest i | counterHi | counterLo => rfl
    | _ => exact Bool.noConfusion hr

theorem eraseData_blockWrite (cfg : Config) (off : Nat) (v : Word) (b : Block) :
    eraseData (blockWrite cfg off v b) = eraseData (blockWrite cfg off v (eraseData b)) := by
  have hbusy : busy (eraseData b) = busy b := rfl
  unfold blockWrite
  cases regAt off with
  | none => rfl
  | some r =>
    dsimp only
    rw [hbusy]
    split
    · split
      · rfl
      · exact eraseData_acceptWord cfg v b
    · exact eraseData_writeRegister r v b

theorem eraseData_blockTurn (cfg : Config) (e : Event) (b : Block) :
    eraseData (blockTurn cfg e b) = eraseData (blockTurn cfg e (eraseData b)) := by
  cases e with
  | core => exact eraseData_coreStep b
  | reset => rfl
  | host a =>
    cases a with
    | read addr width => rfl
    | write addr width v =>
      simp only [blockTurn]
      split
      · exact eraseData_blockWrite cfg _ v b
      · rfl

/-- The same turn, but for the value written to a data register, on blocks that differ in data only. -/
theorem eraseData_blockTurn_congr {cfg : Config} {e e' : Event} {b b' : Block} (he : SameTurn cfg e e')
    (hb : eraseData b = eraseData b') : eraseData (blockTurn cfg e b) = eraseData (blockTurn cfg e' b') := by
  have hsame : eraseData (blockTurn cfg e b) = eraseData (blockTurn cfg e b') := by
    rw [eraseData_blockTurn, hb, ← eraseData_blockTurn]
  refine hsame.trans ?_
  cases he with
  | same => rfl
  | dataWrite addr width v v' r hwin hreg hdata =>
    have hcmd : r ≠ .cmd := by rintro rfl; exact Bool.noConfusion hdata
    simp only [blockTurn, hwin, if_true, blockWrite, hreg, if_neg hcmd]
    exact eraseData_writeRegister_data r v v' b' hdata

/-- A turn faults by its address and its width, not by the value it writes. -/
theorem turnFault_congr {cfg : Config} {e e' : Event} (he : SameTurn cfg e e') :
    turnFault cfg e = turnFault cfg e' := by
  cases he <;> rfl

theorem SameControl.nextTurn {s t : State} (h : SameControl s t) :
    SameTurn s.cfg (nextTurn s) (nextTurn t) ∧ List.Forall₂ (SameTurn s.cfg) s.inbox.tail t.inbox.tail := by
  have hin := h.inbox
  unfold Machine.nextTurn
  generalize s.inbox = es at hin ⊢
  generalize t.inbox = es' at hin ⊢
  cases hin with
  | nil => exact ⟨.same _, .nil⟩
  | cons hd htl => exact ⟨hd, htl⟩

/-- STATUS and `irq` show nothing of the data. -/
theorem view_of_eraseData_eq {b b' : Block} (h : eraseData b = eraseData b') :
    statusWord b = statusWord b' ∧ irq b = irq b' := by
  have hstatus : ∀ a, statusWord a = statusWord (eraseData a) := fun _ => rfl
  have hirq : ∀ a, irq a = irq (eraseData a) := fun _ => rfl
  exact ⟨by rw [hstatus, h, ← hstatus], by rw [hirq, h, ← hirq]⟩

/-- Settles O35: with the data erased the two machines are one, and every turn commutes with erasing it. -/
theorem timingDoesNotDependOnData : Obligations.TimingDoesNotDependOnData := by
  intro s s' h
  obtain ⟨hturn, hrest⟩ := h.nextTurn
  obtain ⟨hcfg, hblock, -⟩ := (sameControl_iff s s').1 h
  have hfault := turnFault_congr hturn
  obtain ⟨f, hf, hs⟩ | ⟨hn, reply, hs⟩ := step_fault_or_next s <;>
    obtain ⟨f', hf', hs'⟩ | ⟨hn', reply', hs'⟩ := step_fault_or_next s' <;>
    rw [← hcfg, ← hfault] at *
  · exact .inl ⟨f, hs, by rw [hs', Option.some.inj (hf.symm.trans hf')]⟩
  · exact absurd (hf.symm.trans hn') (by simp)
  · exact absurd (hf'.symm.trans hn) (by simp)
  · have hb := eraseData_blockTurn_congr hturn hblock
    exact .inr ⟨_, _, hs, hs', (sameControl_iff _ _).2 ⟨rfl, hb, hrest⟩, view_of_eraseData_eq hb⟩

/-! ### What no read shows: the key, and the count of the steps left -/

/-- No read and no `irq` depends on the KEY words or on the number of CORE steps left (R43, R52, R280). -/
theorem sameView_of_key_left (cfg : Config) (b : Block) (k : Buffer) (n : Nat) :
    sameView cfg b { b with key := k, left := n } := by
  refine ⟨fun off => ?_, rfl⟩
  unfold busRead
  cases regAt off with
  | none => rfl
  | some r => cases r <;> rfl

/-- Settles O34: the KEY registers read as zero, and no other register holds a key word. -/
theorem keyWordsAreNotReadable : Obligations.KeyWordsAreNotReadable :=
  fun cfg b k => sameView_of_key_left cfg b k b.left

/-- Settles O26: `coreStep` returns an idle block as it is, and above one step left only counts down. -/
theorem internalCoreStepsAreInvisible : Obligations.InternalCoreStepsAreInvisible := by
  intro s rest h
  refine ⟨fun hp => ?_, fun op hp hl => ⟨_, step_core s rest h, ?_, ?_⟩⟩
  · rw [step_core s rest h]
    simp [coreStep, hp]
  · simp [coreStep, hp, Nat.not_le.2 hl]
  · have hcount : coreStep s.block = { s.block with left := s.block.left - 1 } := by
      simp [coreStep, hp, Nat.not_le.2 hl]
    show sameView s.cfg s.block (coreStep s.block)
    rw [hcount]
    exact sameView_of_key_left s.cfg s.block s.block.key _

/-! ### The digit count -/

/-- Where n CORE steps leave a pending command: still counting down, or complete (R257, R320). -/
theorem coreSteps_of_pending (op : Op) (b : Block) (hp : b.pending = some op) (hl : 1 ≤ b.left) (n : Nat) :
    coreSteps n b = if n < b.left then { b with left := b.left - n } else complete op { b with left := 1 } := by
  split
  · rename_i hn
    exact coreSteps_internal op n b hp hn
  · rename_i hn
    induction n with
    | zero => omega
    | succ n ih =>
      obtain hlt | heq : ¬n < b.left ∨ n + 1 = b.left := by omega
      · rw [coreSteps_succ, ih hlt]
        simp [coreStep]
      · rw [heq, coreSteps_completes op b hp hl]

/-- STATUS and `irq` of a command's run, by the number of CORE steps since acceptance: they see WIGN, IRQ_EN and
whether LAT(op, alg) steps have passed. -/
theorem view_of_run (cfg : Config) (op : Op) (b : Block) (n : Nat) :
    let run := coreSteps n { b with
      status := runningStatus b, pending := some op, left := latency cfg op (selectedAlg b) }
    run.status = (if n < latency cfg op (selectedAlg b) then runningStatus b else doneStatus b) ∧
      busy run = decide (n < latency cfg op (selectedAlg b)) ∧ run.irqEn = b.irqEn := by
  dsimp only
  rw [coreSteps_of_pending op { b with
    status := runningStatus b, pending := some op, left := latency cfg op (selectedAlg b) } rfl (latency_pos _ _ _) n]
  dsimp only
  split
  · rename_i hn
    simp [busy, hn]
  · rename_i hn
    refine ⟨complete_status op _, ?_, complete_irqEn op _⟩
    simp [busy, hn]

theorem view_congr {b b' : Block} (hbusy : busy b = busy b') (hstatus : b.status = b'.status)
    (hirqEn : b.irqEn = b'.irqEn) : statusWord b = statusWord b' ∧ irq b = irq b' := by
  unfold statusWord irq doneIE errIE
  rw [hbusy, hstatus, hirqEn]
  exact ⟨rfl, rfl⟩

/-- Settles O36: both runs last LAT(op, alg) CORE steps, and STATUS and `irq` see nothing else of them. -/
theorem timingDoesNotDependOnDigits : Obligations.TimingDoesNotDependOnDigits := by
  intro s s' op hcfg hi hi' hp hp' halg hw hie
  refine ⟨_, _, exec_accepts op s hi hp, exec_accepts op s' hi' hp', fun n => ?_⟩
  have hsel : selectedAlg s.block = selectedAlg s'.block := congrArg algOf halg
  have hrunning : runningStatus s.block = runningStatus s'.block := by simp [runningStatus, hw]
  have hdone : doneStatus s.block = doneStatus s'.block := by simp [doneStatus, hw]
  obtain ⟨hstatus, hbusy, hirq⟩ := view_of_run s.cfg op s.block n
  obtain ⟨hstatus', hbusy', hirq'⟩ := view_of_run s'.cfg op s'.block n
  refine view_congr (hbusy.trans (Eq.trans ?_ hbusy'.symm)) (hstatus.trans (Eq.trans ?_ hstatus'.symm))
    (hirq.trans (hie.trans hirq'.symm))
  · rw [hcfg, hsel]
  · rw [hcfg, hsel, hrunning, hdone]

end Sys2Proof.Machine

/-! ### Command words and the register map, both ways (spec/30_encoding.md R121, R123; spec/10_state.md R30, R48) -/

namespace Sys2Proof

/-- R123's illegal words: bits 31:4 are not zero, or the low four bits are 0 or 5 to 15. -/
def IllegalWord (w : Word) : Prop :=
  w.toNat / 16 ≠ 0 ∨ w.toNat % 16 = 0 ∨ 5 ≤ w.toNat % 16

/-- An illegal word is refused by RSV or, with RSV zero, by OP (R121). -/
theorem decode_of_illegalWord (w : Word) (h : IllegalWord w) : ∃ e, decode w = .error e := by
  by_cases hrsv : w.toNat / 16 = 0
  · exact ⟨_, decode_eq_reservedOpcode w hrsv (h.resolve_left (not_not_intro hrsv))⟩
  · have hfield : rsvField w ≠ 0 := fun h0 => hrsv (by rw [← rsvField_toNat, h0]; rfl)
    exact ⟨_, if_pos hfield⟩

/-- The words that are not illegal are 1, 2, 3 and 4, each one command's (R122). -/
theorem exists_encode_of_not_illegalWord (w : Word) (h : ¬IllegalWord w) : ∃ i, encode i = w := by
  unfold IllegalWord at h
  obtain h1 | h2 | h3 | h4 : w.toNat = 1 ∨ w.toNat = 2 ∨ w.toNat = 3 ∨ w.toNat = 4 := by omega
  · exact ⟨.hmac, BitVec.eq_of_toNat_eq h1.symm⟩
  · exact ⟨.trunc, BitVec.eq_of_toNat_eq h2.symm⟩
  · exact ⟨.hotp, BitVec.eq_of_toNat_eq h3.symm⟩
  · exact ⟨.zeroize, BitVec.eq_of_toNat_eq h4.symm⟩

/-- A word decodes to a command exactly when it is that command's word (R121). -/
theorem decode_eq_ok_iff (w : Word) (i : Instr) : decode w = .ok i ↔ encode i = w := by
  refine ⟨fun h => ?_, fun h => h ▸ decode_encode i⟩
  obtain hill | hleg := Classical.em (IllegalWord w)
  · obtain ⟨e, he⟩ := decode_of_illegalWord w hill
    rw [he] at h
    cases h
  · obtain ⟨j, rfl⟩ := exists_encode_of_not_illegalWord w hleg
    rw [decode_encode] at h
    cases h
    rfl

/-- Settles O5: every word is illegal, and then refused, or a command's own word, and then decodes to it. -/
theorem decodeAndEncodeAgree : Obligations.DecodeAndEncodeAgree := by
  refine ⟨decode_eq_ok_iff, fun w => ⟨fun ⟨e, he⟩ => ?_, decode_of_illegalWord w⟩⟩
  by_contra hleg
  obtain ⟨j, rfl⟩ := exists_encode_of_not_illegalWord w hleg
  rw [decode_encode] at he
  cases he

end Sys2Proof

namespace Sys2Proof.Machine

/-- Below 0x0C0 every aligned offset but 0x01C and 0x03C is a register's (R30). -/
theorem exists_reg_at (off : Nat) (hal : off % 4 = 0) (hlt : off < 0x0C0) (h1 : off ≠ 0x01C) (h2 : off ≠ 0x03C) :
    ∃ r : Reg, r.offset = off := by
  have hlow : ∀ k < 16, k ≠ 7 → k ≠ 15 → ∃ r ∈ registers, r.offset = 4 * k := by decide
  obtain hoff | hoff | hoff : off < 0x040 ∨ (0x040 ≤ off ∧ off < 0x080) ∨ 0x080 ≤ off := by omega
  · obtain ⟨r, -, hr⟩ := hlow (off / 4) (by omega) (by omega) (by omega)
    exact ⟨r, by omega⟩
  · refine ⟨.key ⟨(off - 0x040) / 4, by omega⟩, ?_⟩
    show 0x040 + 4 * ((off - 0x040) / 4) = off
    omega
  · refine ⟨.digest ⟨(off - 0x080) / 4, by omega⟩, ?_⟩
    show 0x080 + 4 * ((off - 0x080) / 4) = off
    omega

/-- Settles O6: a register is found at its own offset, and the offsets that are no register's are the three ranges. -/
theorem registersAreAtTheirOffsets : Obligations.RegistersAreAtTheirOffsets := by
  refine ⟨regAt_offset .id, regAt_offset .caps, regAt_offset .ctrl, regAt_offset .cmd, regAt_offset .status,
    regAt_offset .irqEn, regAt_offset .keyLen, regAt_offset .counterHi, regAt_offset .counterLo,
    regAt_offset .truncOffset, regAt_offset .truncValue, regAt_offset .code, regAt_offset .codeBcdLo,
    regAt_offset .codeBcdHi, fun i => regAt_offset (.key i), fun i => regAt_offset (.digest i),
    fun off _ hal => ⟨fun hnone => ?_, regAt_reserved off⟩⟩
  by_contra hres
  obtain ⟨r, rfl⟩ := exists_reg_at off hal (by omega) (by omega) (by omega)
  simp at hnone

/-! ### A command word written to CMD (R254, R255) -/

/-- The turn of a write to CMD of a word that decodes is that command's meaning (R255). -/
theorem step_write_command (s : State) (rest : List Event) (w : Word) (i : Instr)
    (h : s.inbox = .host (.write (otpBase s.cfg + Reg.offset .cmd) 4 w) :: rest) (hd : decode w = .ok i) :
    step s = exec i { s with inbox := rest, reply := .written } := by
  rw [step_write s rest _ w (offset_lt .cmd).1 (offset_lt .cmd).2 h]
  unfold busWrite
  rw [regAt_offset]
  show writeCmd w _ = _
  unfold writeCmd
  rw [hd]

/-- Settles O7: CMD's own offset is 0x00C. -/
theorem stepRunsTheCommandWritten : Obligations.StepRunsTheCommandWritten :=
  step_write_command

/-- The access of `withFetchWord` for a command's word is the 4-byte write of that word to CMD (R125). -/
theorem commandAccess_encode (cfg : Config) (i : Instr) :
    commandAccess cfg 32 (encode i).toNat = .write (otpBase cfg + Reg.offset .cmd) 4 (encode i) := by
  cases i <;> rfl

/-- Settles O8: the turn put first is a write of the command's word to CMD. -/
theorem fetchedWordRunsNext : Obligations.FetchedWordRunsNext := by
  intro s i
  refine step_write_command (s.withFetchWord 32 (encode i).toNat) s.inbox (encode i) i ?_ (decode_encode i)
  unfold State.withFetchWord
  rw [commandAccess_encode]

/-- Settles O22: all four are CMD writes, which are lost while BUSY. -/
theorem commandsAreLostWhileBusy : Obligations.CommandsAreLostWhileBusy := by
  intro s i hbusy
  rw [exec_eq_commandWrite, commandWrite_busy _ _ hbusy, setWign]

/-! ### Writes to the other registers, idle and BUSY (R36, R41, R43 to R45, R49, R253, R254) -/

/-- While idle no write is turned away (R253). -/
theorem writeRegister_idle (r : Reg) (v : Word) (b : Block) (h : busy b = false) :
    writeRegister r v b = storeRegister r v b := by
  simp [writeRegister, h]

/-- Settles O11: idle, the turn of the write is the store of its register. -/
theorem idleOperandWritesStore : Obligations.IdleOperandWritesStore := by
  intro s rest off v h hidle
  have hstore : ∀ r : Reg, r ≠ .cmd → off = r.offset → step s = .next { s with
      inbox := rest, reply := .written, block := storeRegister r v s.block } := by
    rintro r hr rfl
    rw [step_write_register s rest r v hr h, writeRegister_idle r v s.block hidle]
  exact ⟨hstore .ctrl (by decide), hstore .keyLen (by decide), hstore .counterHi (by decide),
    hstore .counterLo (by decide), fun i => hstore (.key i) (by simp), fun i => hstore (.digest i) (by simp)⟩

/-- Settles O13: STATUS is not IDLE_ONLY, so its write is W1C in every state. -/
theorem statusWriteClearsWrittenBits : Obligations.StatusWriteClearsWrittenBits := by
  intro s rest v h
  have hclear : ∀ flag bit : Bool, (flag && !bit) = if bit = true then false else flag := by decide
  rw [step_write_register s rest .status v (by decide) h]
  show Host.Outcome.next { s with inbox := rest, reply := .written, block := statusW1C v s.block } = _
  simp only [statusW1C, hclear]

/-- The IDLE_ONLY registers stand at the offsets R254 names (R30). -/
theorem exists_idleOnly_at (off : Nat) (hal : off % 4 = 0)
    (h : off = 0x008 ∨ off = 0x00C ∨ off = 0x018 ∨ off = 0x020 ∨ off = 0x024 ∨
      (0x040 ≤ off ∧ off ≤ 0x07C) ∨ (0x080 ≤ off ∧ off ≤ 0x0BC)) :
    ∃ r : Reg, idleOnly r = true ∧ r.offset = off := by
  obtain ⟨r, rfl⟩ := exists_reg_at off hal (by omega) (by omega) (by omega)
  refine ⟨r, ?_, rfl⟩
  cases r with
  | ctrl | cmd | keyLen | counterHi | counterLo | key i | digest i => rfl
  | _ => exact absurd h (by decide)

/-- Settles O15: each of the offsets is an IDLE_ONLY register's, and CMD turns its word away by the same rule. -/
theorem busyOperandWritesAreLost : Obligations.BusyOperandWritesAreLost := by
  intro s rest off v h hbusy hal hoff
  obtain ⟨r, hr, rfl⟩ := exists_idleOnly_at off hal hoff
  by_cases hcmd : r = .cmd
  · subst hcmd
    rw [step_write_cmd s rest v h, if_pos hbusy, setWign]
  · rw [step_write_register s rest r v hcmd h, writeRegister, hr, hbusy]
    rfl

end Sys2Proof.Machine

/-! ### The five bytes a truncation reads, and the decimal digits of a code (R47, R150, R156) -/

namespace Sys2Proof.Machine

/-- Settles O38: the offset is read from the last byte, and the value from the four bytes at the offset. -/
theorem truncationReadsFiveBytes : Obligations.TruncationReadsFiveBytes := by
  intro alg D E d hlen hsame hlast hwindow
  have hlong : 20 ≤ D.length := hlen ▸ (digestLength_le alg).1
  have hin := dtOffset_add_three_lt D hlong
  have getD_congr : ∀ i, E[i]? = D[i]? → E.getD i 0 = D.getD i 0 := fun i h => by
    rw [List.getD_eq_getElem?_getD, List.getD_eq_getElem?_getD, h]
  have hoff : dtOffset E = dtOffset D := by
    rw [dtOffset_eq, dtOffset_eq, hsame, getD_congr _ hlast]
  have hvalue : dtValue E = dtValue D := by
    have hbyte : ∀ j, j ≤ 3 → E.getD (dtOffset D + j) 0 = D.getD (dtOffset D + j) 0 :=
      fun j hj => getD_congr _ (hwindow _ (by omega) (by omega))
    have hfirst := hbyte 0 (by omega)
    rw [Nat.add_zero] at hfirst
    rw [dtValue_eq, dtValue_eq, hoff, be_window_four E _ (by omega), be_window_four D _ (by omega), hfirst,
      hbyte 1 (by omega), hbyte 2 (by omega), hbyte 3 (by omega)]
  exact ⟨hoff, hvalue, by rw [dtCode, dtCode, hvalue]⟩

/-! ### The BCD registers -/

/-- Digit k of CODE_BCD_LO is its bits 4k+3:4k (R47). -/
theorem bcdLo_digit (c k : Nat) (hk : k < 8) :
    ((BitVec.ofNat 32 (bcdLo c)).extractLsb' (4 * k) 4).toNat = bcdDigit c k := by
  have hlt := bcdDigit_lt c
  have h0 := hlt 0; have h1 := hlt 1; have h2 := hlt 2; have h3 := hlt 3
  have h4 := hlt 4; have h5 := hlt 5; have h6 := hlt 6; have h7 := hlt 7
  rw [BitVec.extractLsb'_toNat, BitVec.toNat_ofNat, Nat.mod_eq_of_lt (bcdLo_lt c), Nat.shiftRight_eq_div_pow,
    bcdLo_eq]
  interval_cases k <;> omega

/-- CODE_BCD_HI as a number (R47). -/
theorem toNat_bcdHi (c : Nat) : (BitVec.ofNat 32 (bcdHi c)).toNat = bcdDigit c 8 + 16 * bcdDigit c 9 := by
  have := bcdHi_lt c
  rw [BitVec.toNat_ofNat, Nat.mod_eq_of_lt (by omega), bcdHi_eq]

/-- Digits 8 and 9 are bits 3:0 and 7:4 of CODE_BCD_HI, and its other bits are zero (R47). -/
theorem bcdHi_digits (c : Nat) :
    ((BitVec.ofNat 32 (bcdHi c)).extractLsb' 0 4).toNat = bcdDigit c 8 ∧
    ((BitVec.ofNat 32 (bcdHi c)).extractLsb' 4 4).toNat = bcdDigit c 9 ∧
    (BitVec.ofNat 32 (bcdHi c)).extractLsb' 8 24 = 0 := by
  have h8 := bcdDigit_lt c 8
  have h9 := bcdDigit_lt c 9
  refine ⟨?_, ?_, BitVec.eq_of_toNat_eq ?_⟩ <;>
    rw [BitVec.extractLsb'_toNat, toNat_bcdHi, Nat.shiftRight_eq_div_pow]
  · omega
  · omega
  · show _ = 0
    omega

/-- A code below 10^d has no digit from d on (R47). -/
theorem bcdDigit_eq_zero (c d k : Nat) (hc : c < 10 ^ d) (hdk : d ≤ k) : bcdDigit c k = 0 := by
  have hlt : c < 10 ^ k := hc.trans_le (Nat.pow_le_pow_right (by decide) hdk)
  rw [bcdDigit, Nat.div_eq_of_lt hlt]

/-- The first n digits add up to the code modulo 10^n. -/
theorem sum_bcdDigit (c n : Nat) : ((List.range n).map fun k => bcdDigit c k * 10 ^ k).sum = c % 10 ^ n := by
  induction n with
  | zero => simp [Nat.mod_one]
  | succ n ih =>
    rw [List.range_succ, List.map_append, List.sum_append, ih, Nat.mod_pow_succ]
    simp [bcdDigit, Nat.mul_comm]

/-- Settles O39: each digit is below 10, so it fills its own four bits and no carry leaves them. -/
theorem bcdRegistersHoldTheDigits : Obligations.BcdRegistersHoldTheDigits := by
  intro c hc
  obtain ⟨h8, h9, hhigh⟩ := bcdHi_digits c
  refine ⟨bcdLo_digit c, h8, h9, hhigh, bcdDigit_eq_zero c, ?_⟩
  rw [sum_bcdDigit, Nat.mod_eq_of_lt (by omega)]

end Sys2Proof.Machine

/-! ### The runs of HMAC, TRUNC and HOTP, from acceptance to completion (spec/40, 41, 43; R257, R258) -/

namespace Sys2Proof.Machine

/-! ### What a completed command leaves, in terms of the block at acceptance -/

/-- The digest register's bytes after a digest of the selected length is written (R174). -/
theorem bufferBytes_hmac (b : Block) :
    bufferBytes (writeDigest (hmacOfOperands b) b).digest =
      hmacOfOperands b ++ zeroBytes (64 - digestLength (selectedAlg b)) := by
  have hlen := digestLength_le (selectedAlg b)
  rw [bufferBytes_writeDigest _ _ (by simp [hlen]), hmacOfOperands_length]

/-- The value written by a truncation, in the obligations' terms (R151). -/
theorem toNat_truncValue (d : List Byte) (n : Nat) (b : Block) :
    (writeTruncation d n b).truncValue.toNat =
      be (window d (writeTruncation d n b).truncOffset.toNat 4) % 2 ^ 31 := by
  rw [toNat_writeTruncation_value, toNat_writeTruncation_offset, dtValue_eq]

/-- The code written by a truncation is its value modulo 10^n (R152). -/
theorem toNat_code (d : List Byte) (n : Nat) (b : Block) :
    (writeTruncation d n b).code.toNat = (writeTruncation d n b).truncValue.toNat % 10 ^ n := by
  rw [toNat_writeTruncation_code, toNat_writeTruncation_value, dtCode]

/-- Settles O18: the run ends in `complete`, and the digest it writes reads back as it was written. -/
theorem hmacCompletes : Obligations.HmacCompletes := by
  intro s hidle hpass
  refine ⟨_, (writeDigest (hmacOfOperands s.block) s.block).digest, exec_accepts .hmac s hidle hpass, rfl,
    bufferBytes_hmac s.block, ?_⟩
  rw [coreSteps_of_accepted, complete_hmac]
  rfl

/-- Settles O19: the run ends in `complete`, and the result registers are wide enough for the truncation. -/
theorem truncCompletes : Obligations.TruncCompletes := by
  intro s hidle hpass
  let D := digestOperand s.block
  let n := ctrlDigits s.block
  have hcode : (writeTruncation D n s.block).code.toNat = dtCode D n := toNat_writeTruncation_code D n s.block
  obtain ⟨h8, h9, hhigh⟩ := bcdHi_digits (dtCode D n)
  refine ⟨_, (writeTruncation D n s.block).truncOffset, (writeTruncation D n s.block).truncValue,
    (writeTruncation D n s.block).code, (writeTruncation D n s.block).codeBcdLo,
    (writeTruncation D n s.block).codeBcdHi, exec_accepts .trunc s hidle hpass, rfl,
    toNat_writeTruncation_offset D n s.block, toNat_truncValue D n s.block, toNat_code D n s.block, ?_, ?_, ?_,
    hhigh, ?_⟩
  · rw [hcode]
    exact bcdLo_digit (dtCode D n)
  · rw [hcode]
    exact h8
  · rw [hcode]
    exact h9
  · rw [coreSteps_of_accepted, complete_trunc]
    rfl

/-- Settles O20: HMAC's digest and TRUNC's results, of the digest just computed. -/
theorem hotpCompletes : Obligations.HotpCompletes := by
  intro s hidle hpass
  let D := hmacOfOperands s.block
  let n := ctrlDigits s.block
  have hcode : (writeTruncation D n s.block).code.toNat = dtCode D n := toNat_writeTruncation_code D n s.block
  refine ⟨_, D, (writeDigest D s.block).digest, (writeTruncation D n s.block).truncOffset,
    (writeTruncation D n s.block).truncValue, (writeTruncation D n s.block).code,
    exec_accepts .hotp s hidle hpass, rfl, rfl, bufferBytes_hmac s.block,
    toNat_writeTruncation_offset D n s.block, toNat_truncValue D n s.block, toNat_code D n s.block, ?_⟩
  rw [coreSteps_of_accepted, complete_hotp, hcode]
  rfl

/-! ### HOTP as HMAC, then TRUNC (R241) -/

/-- The block with KEEP_KEY forced to 1, as R241 has HMAC run. -/
def forceKeepKey (b : Block) : Block :=
  { b with ctrl := b.ctrl ||| 0x00010000 }

@[simp] theorem ctrlAlg_forceKeepKey (b : Block) : ctrlAlg (forceKeepKey b) = ctrlAlg b := by
  show (b.ctrl ||| 0x00010000).extractLsb' 0 2 = b.ctrl.extractLsb' 0 2
  rw [BitVec.extractLsb'_or]
  exact BitVec.or_zero

@[simp] theorem ctrlDigits_forceKeepKey (b : Block) : ctrlDigits (forceKeepKey b) = ctrlDigits b := by
  show ((b.ctrl ||| 0x00010000).extractLsb' 8 4).toNat = (b.ctrl.extractLsb' 8 4).toNat
  rw [BitVec.extractLsb'_or]
  exact congrArg BitVec.toNat BitVec.or_zero

@[simp] theorem ctrlKeepKey_forceKeepKey (b : Block) : ctrlKeepKey (forceKeepKey b) = true := by
  show (b.ctrl ||| 0x00010000).getLsbD 16 = true
  simp

@[simp] theorem selectedAlg_forceKeepKey (b : Block) : selectedAlg (forceKeepKey b) = selectedAlg b :=
  congrArg algOf (ctrlAlg_forceKeepKey b)

@[simp] theorem hmacOfOperands_forceKeepKey (b : Block) : hmacOfOperands (forceKeepKey b) = hmacOfOperands b :=
  congrArg (fun alg => hmac alg (keyOperand b) (messageOperand b)) (selectedAlg_forceKeepKey b)

/-- HMAC run with KEEP_KEY = 1: the digest is written, and the operands stay. -/
def afterKeptHmac (b : Block) : Block :=
  { writeDigest (hmacOfOperands b) (forceKeepKey b) with status := doneStatus b, pending := none, left := 0 }

theorem complete_hmac_forceKeepKey (b : Block) :
    complete .hmac (aboutToComplete .hmac (forceKeepKey b)) = afterKeptHmac b := by
  have hkeep : ctrlKeepKey (aboutToComplete .hmac (forceKeepKey b)) = true := ctrlKeepKey_forceKeepKey b
  have hdigest : hmacOfOperands (aboutToComplete .hmac (forceKeepKey b)) = hmacOfOperands b :=
    hmacOfOperands_forceKeepKey b
  rw [complete_hmac, hkeep, hdigest]
  rfl

/-- TRUNC after it reads the digest that HMAC wrote (R174, R241). -/
theorem digestOperand_afterKeptHmac (b : Block) : digestOperand (afterKeptHmac b) = hmacOfOperands b :=
  digestOperand_writeDigest (hmacOfOperands b) (forceKeepKey b) (by simp)

/-- The completion of HOTP, and the completion of TRUNC after HMAC, have the same digest, the same results, and the
same key but for HOTP's zeroisation. -/
theorem complete_hotp_eq_trunc_after_hmac (b : Block) :
    let one := complete .hotp (aboutToComplete .hotp b)
    let two := complete .trunc (aboutToComplete .trunc (afterKeptHmac b))
    let last := if ctrlKeepKey b then two else zeroiseKey two
    one.digest = last.digest ∧ one.truncOffset = last.truncOffset ∧ one.truncValue = last.truncValue ∧
      one.code = last.code ∧ one.codeBcdLo = last.codeBcdLo ∧ one.codeBcdHi = last.codeBcdHi ∧
      one.key = last.key ∧ one.keyLen = last.keyLen := by
  have hdigest : digestOperand (aboutToComplete .trunc (afterKeptHmac b)) = hmacOfOperands b :=
    digestOperand_afterKeptHmac b
  have hdigits : ctrlDigits (aboutToComplete .trunc (afterKeptHmac b)) = ctrlDigits b := ctrlDigits_forceKeepKey b
  have hkeep : ctrlKeepKey (aboutToComplete .hotp b) = ctrlKeepKey b := rfl
  rw [complete_hotp, complete_trunc, hdigest, hdigits, hkeep]
  cases ctrlKeepKey b <;> exact ⟨rfl, rfl, rfl, rfl, rfl, rfl, rfl, rfl⟩

/-- Settles O24: each of the three runs ends in its completion. -/
theorem hotpIsHmacThenTrunc : Obligations.HotpIsHmacThenTrunc := by
  intro s hidle hpass
  have hidle1 : busy (forceKeepKey s.block) = false := hidle
  have hpass1 : Passes s.cfg .hmac (forceKeepKey s.block) :=
    ⟨by rw [ctrlAlg_forceKeepKey]; exact hpass.alg, fun _ => hpass.key rfl, fun h => Bool.noConfusion h⟩
  have hpass2 : Passes s.cfg .trunc (afterKeptHmac s.block) :=
    ⟨hpass1.alg, fun h => Bool.noConfusion h, fun _ => by
      show 1 ≤ ctrlDigits (forceKeepKey s.block) ∧ ctrlDigits (forceKeepKey s.block) ≤ 10
      rw [ctrlDigits_forceKeepKey]
      exact hpass.digits rfl⟩
  obtain ⟨t, ht, -, hone⟩ := exec_then_completes .hotp s hidle hpass
  obtain ⟨u, hu, hcfg, hhmac⟩ := exec_then_completes .hmac { s with block := forceKeepKey s.block } hidle1 hpass1
  rw [selectedAlg_forceKeepKey, complete_hmac_forceKeepKey] at hhmac
  obtain ⟨v, hv, -, htwo⟩ := exec_then_completes .trunc { u with block := afterKeptHmac s.block } rfl (by
    rw [hcfg]
    exact hpass2)
  have hsel : selectedAlg (afterKeptHmac s.block) = selectedAlg s.block := selectedAlg_forceKeepKey s.block
  rw [hsel] at htwo
  dsimp only at htwo hcfg hhmac
  rw [hcfg] at htwo
  refine ⟨t, u, v, ht, hu, ?_, ?_⟩
  · rw [hhmac]
    exact hv
  · dsimp only
    rw [hone, htwo]
    exact complete_hotp_eq_trunc_after_hmac s.block

/-! ### A second HOTP (R242, R313) -/

/-- A keyed command with a legal ALG and no key fails in INVALID_SECRET (R274, R277). -/
theorem checksOf_invalidSecret {cfg : Config} {op : Op} {b : Block} (halg : algLegal cfg (ctrlAlg b) = true)
    (hkeyed : keyed op = true) (hlen : b.keyLen.toNat = 0) : checksOf op cfg b = some .invalidSecret := by
  rw [checksOf_eq, halg, if_neg (by decide), if_pos ⟨hkeyed, hlen⟩]

/-- HOTP with KEEP_KEY = 0 leaves no key (R258). -/
theorem complete_hotp_keyLen (b : Block) (h : ctrlKeepKey b = false) : (complete .hotp b).keyLen = 0 := by
  rw [complete_hotp, h]
  rfl

/-- Settles O25: the first run zeroised KEY_LEN, and an error completion leaves the digest and the results. -/
theorem hotpWithoutReloadFails : Obligations.HotpWithoutReloadFails := by
  intro s hidle hpass hkeep
  obtain ⟨t, ht, hcfg, hrun⟩ := exec_then_completes .hotp s hidle hpass
  have hpending : (complete .hotp (aboutToComplete .hotp s.block)).pending = none := complete_pending _ _
  have hlen := complete_hotp_keyLen (aboutToComplete .hotp s.block) hkeep
  refine ⟨t, _, _, ht, rfl, exec_reports .hotp _ .invalidSecret ?_ (checksOf_invalidSecret ?_ rfl ?_), rfl, rfl, ?_,
    rfl, rfl⟩ <;> dsimp only <;> rw [hrun]
  · exact (busy_eq_false _).2 hpending
  · rw [hcfg, ctrlAlg, complete_ctrl]
    exact hpass.alg
  · rw [hlen]
    rfl
  · exact hpending

end Sys2Proof.Machine

/-! ### CORE turns up to the completion (spec/44_control.md R257; spec/70_reset_and_hazards.md R320) -/

namespace Sys2Proof.Machine

/-- n steps with no turn waiting are n CORE steps of the block. -/
theorem core_run_of_no_turn (n : Nat) (s : State) (h : s.inbox = []) :
    core.run n s = .next { s with block := coreSteps n s.block } := by
  induction n generalizing s with
  | zero => rfl
  | succ n ih =>
    have hstep : core.step s = .next { s with inbox := [], block := coreStep s.block } :=
      step_core s [] (.inr ⟨h, rfl⟩)
    simp only [Host.Core.run, hstep]
    refine (ih { s with inbox := [], block := coreStep s.block } rfl).trans ?_
    rw [coreSteps, ← h]

/-- Settles O50: a CORE turn is `coreStep`, which completes when it finds 1 step left. -/
theorem coreTurnsCompleteTheCommand : Obligations.CoreTurnsCompleteTheCommand := by
  refine ⟨fun s rest h => ⟨step_core s rest h, fun op hp hl => ?_⟩, fun s n => core_run_of_no_turn n s⟩
  rw [step_core s rest h]
  simp [coreStep, hp, hl]

/-- Settles O27: the invariant bounds the steps left by LAT(op, alg), and the last of them completes with ERR as it
was, which is 0 while BUSY. -/
theorem acceptedCommandsComplete : Obligations.AcceptedCommandsComplete := by
  intro s op hinv hi hp
  obtain ⟨⟨-, herr⟩, ⟨hpos, hle⟩, -⟩ := Block.Inv.running hinv hp
  refine ⟨s.block.left, _, hpos, hle, core_run_of_no_turn _ s hi, ?_⟩
  rw [coreSteps_completes op s.block hp hpos]
  refine ⟨(busy_eq_false _).2 (complete_pending _ _), ?_, ?_⟩ <;> rw [complete_status]
  exact herr

end Sys2Proof.Machine

/-! ### Which turns change what: results, operands, the counter, WIGN and the flags (R41, R45 to R47, R54, R254) -/

namespace Sys2Proof.Machine

/-! ### The results (R46, R47) -/

/-- The truncation's result registers. -/
def results (b : Block) : Word × Word × Word × Word × Word :=
  (b.truncOffset, b.truncValue, b.code, b.codeBcdLo, b.codeBcdHi)

/-- No register write changes a result (R46, R47, R48). -/
theorem writeRegister_results (r : Reg) (v : Word) (b : Block) : results (writeRegister r v b) = results b := by
  unfold writeRegister
  split
  · rfl
  · cases r <;> rfl

/-- Among the command words only ZEROIZE's changes a result when it is accepted (R250, R255). -/
theorem acceptWord_results (cfg : Config) (w : Word) (b : Block) (hw : w ≠ encode .zeroize) :
    results (acceptWord cfg w b) = results b := by
  have haccept : ∀ op e, results (acceptCommand cfg op e b) = results b := fun op e => by
    obtain ⟨-, -, -, -, -, hoff, hval, hcode, hlo, hhi, -⟩ := acceptCommand_frame cfg op e b
    simp only [results, hoff, hval, hcode, hlo, hhi]
  unfold acceptWord
  cases hd : decode w with
  | error e => rfl
  | ok i =>
    cases i with
    | zeroize => exact absurd ((decode_eq_ok_iff w .zeroize).1 hd).symm hw
    | hmac => exact haccept .hmac _
    | trunc => exact haccept .trunc _
    | hotp => exact haccept .hotp _

/-- The completion of a command that does not truncate leaves the results (R173). -/
theorem complete_results (op : Op) (b : Block) (h : truncates op = false) : results (complete op b) = results b := by
  cases op with
  | hmac => rw [complete_hmac]; rfl
  | trunc => exact Bool.noConfusion h
  | hotp => exact Bool.noConfusion h

/-- Settles O28: of the things `step_cases` allows, only these three reach the result registers. -/
theorem resultsChangeOnlyByTheirWriters : Obligations.ResultsChangeOnlyByTheirWriters := by
  intro s t hstep
  show results t.block = results s.block ∨ _
  obtain ⟨-, -, hcases⟩ := step_cases s t hstep
  obtain ⟨hturn, hb, -⟩ | ⟨hturn, -⟩ | ⟨-, hb⟩ | ⟨_, v, r, -, -, -, -, -, hb, -⟩ |
    ⟨off, v, hturn, -, -, hreg, -, hb⟩ := hcases
  · obtain ⟨-, heq⟩ | ⟨op, -, -, heq⟩ | ⟨op, hp, -, heq⟩ := coreStep_cases s.block <;> rw [hb, heq]
    · exact .inl rfl
    · exact .inl rfl
    · cases ht : truncates op with
      | false => exact .inl (complete_results op s.block ht)
      | true => exact .inr (.inl ⟨op, hp, ht, complete_pending op _, hturn⟩)
  · exact .inr (.inr (.inr hturn))
  · exact .inl (by rw [hb])
  · exact .inl (by rw [hb, writeRegister_results])
  · obtain rfl := (regAt_eq_some_iff off .cmd).1 hreg
    cases hbusy : busy s.block with
    | true =>
      rw [hb, hbusy]
      exact .inl rfl
    | false =>
      by_cases hw : v = encode .zeroize
      · subst hw
        exact .inr (.inr (.inl ⟨rfl, hturn⟩))
      · rw [hb, hbusy]
        exact .inl (acceptWord_results s.cfg v s.block hw)

/-! ### A running command's operands (R254) -/

/-- The operands of a command, and which command is pending. -/
def operands (b : Block) : Word × Word × Word × Option Op × Buffer × Word × Buffer :=
  (b.ctrl, b.counterHi, b.counterLo, b.pending, b.key, b.keyLen, b.digest)

/-- While BUSY no register write changes an operand: the operand registers are IDLE_ONLY (R254). -/
theorem writeRegister_operands (r : Reg) (v : Word) (b : Block) (h : busy b = true) :
    operands (writeRegister r v b) = operands b := by
  obtain heq | ⟨heq, hr⟩ := writeRegister_busy r v b h <;> rw [heq]
  · rfl
  · cases r with
    | ctrl | cmd | keyLen | counterHi | counterLo | key i | digest i => exact Bool.noConfusion hr
    | _ => rfl

/-- While a command is pending, a turn that is not RESET leaves the operands, or is the CORE's and completes it. -/
theorem step_operands {s t : State} {op : Op} (hstep : step s = .next t) (hp : s.block.pending = some op)
    (hreset : s.inbox.head? ≠ some .reset) :
    operands t.block = operands s.block ∨
      ((s.inbox = [] ∨ s.inbox.head? = some .core) ∧ t.block = complete op s.block) := by
  have hbusy : busy s.block = true := (busy_eq_true _).2 ⟨op, hp⟩
  obtain ⟨-, -, hcases⟩ := step_cases s t hstep
  obtain ⟨hturn, hb, -⟩ | ⟨hturn, -⟩ | ⟨-, hb⟩ | ⟨_, v, r, -, -, -, -, -, hb, -⟩ |
    ⟨_, _, -, -, -, -, -, hb⟩ := hcases
  · obtain ⟨hn, -⟩ | ⟨op', -, -, heq⟩ | ⟨op', hp', -, heq⟩ := coreStep_cases s.block
    · simp [hp] at hn
    · exact .inl (by rw [hb, heq]; rfl)
    · obtain rfl : op = op' := by simpa [hp] using hp'
      exact .inr ⟨hturn, hb.trans heq⟩
  · exact absurd hturn hreset
  · exact .inl (by rw [hb])
  · exact .inl (by rw [hb, writeRegister_operands r v s.block hbusy])
  · exact .inl (by rw [hb, hbusy]; rfl)

/-- Settles O29: the completion itself leaves CTRL and the counter. -/
theorem busyOperandsAreFixed : Obligations.BusyOperandsAreFixed := by
  intro s t op hstep hp hreset
  obtain hsame | ⟨hturn, hb⟩ := step_operands hstep hp hreset
  · simp only [operands, Prod.mk.injEq] at hsame
    obtain ⟨hctrl, hhi, hlo, hpend, hkey, hlen, hdigest⟩ := hsame
    exact ⟨hctrl, hhi, hlo, .inl ⟨hpend.trans hp, hkey, hlen, hdigest⟩⟩
  · refine ⟨?_, ?_, ?_, .inr ⟨?_, hturn, hb⟩⟩ <;> rw [hb] <;> simp

/-! ### The counter (R45) -/

@[simp] theorem coreStep_counterHi (b : Block) : (coreStep b).counterHi = b.counterHi := by
  obtain ⟨-, h⟩ | ⟨op, -, -, h⟩ | ⟨op, -, -, h⟩ := coreStep_cases b <;> simp [h]

@[simp] theorem coreStep_counterLo (b : Block) : (coreStep b).counterLo = b.counterLo := by
  obtain ⟨-, h⟩ | ⟨op, -, -, h⟩ | ⟨op, -, -, h⟩ := coreStep_cases b <;> simp [h]

/-- Acceptance of a word leaves the counter (R250, R255). -/
theorem acceptWord_counter (cfg : Config) (w : Word) (b : Block) :
    (acceptWord cfg w b).counterHi = b.counterHi ∧ (acceptWord cfg w b).counterLo = b.counterLo := by
  have haccept : ∀ op e, (acceptCommand cfg op e b).counterHi = b.counterHi ∧
      (acceptCommand cfg op e b).counterLo = b.counterLo := fun op e => by
    obtain ⟨-, -, hhi, hlo, -⟩ := acceptCommand_frame cfg op e b
    exact ⟨hhi, hlo⟩
  unfold acceptWord
  cases decode w with
  | error e => exact ⟨rfl, rfl⟩
  | ok i =>
    cases i with
    | zeroize => exact ⟨rfl, rfl⟩
    | _ => exact haccept _ _

/-- A register write changes COUNTER_HI only when it is the idle write to it (R45). -/
theorem writeRegister_counterHi (r : Reg) (v : Word) (b : Block) :
    (writeRegister r v b).counterHi = b.counterHi ∨
      (r = .counterHi ∧ busy b = false ∧ (writeRegister r v b).counterHi = v) := by
  cases r with
  | counterHi => cases hbusy : busy b <;> simp [writeRegister, idleOnly, storeRegister, hbusy]
  | _ => unfold writeRegister; split <;> exact .inl rfl

/-- A register write changes COUNTER_LO only when it is the idle write to it (R45). -/
theorem writeRegister_counterLo (r : Reg) (v : Word) (b : Block) :
    (writeRegister r v b).counterLo = b.counterLo ∨
      (r = .counterLo ∧ busy b = false ∧ (writeRegister r v b).counterLo = v) := by
  cases r with
  | counterLo => cases hbusy : busy b <;> simp [writeRegister, idleOnly, storeRegister, hbusy]
  | _ => unfold writeRegister; split <;> exact .inl rfl

/-- Settles O30: the CORE and acceptance leave the counter, and a write changes it only at its own offset. -/
theorem counterChangesOnlyByTheHost : Obligations.CounterChangesOnlyByTheHost := by
  intro s t hstep
  obtain ⟨-, -, hcases⟩ := step_cases s t hstep
  obtain ⟨-, hb, -⟩ | ⟨hturn, -⟩ | ⟨-, hb⟩ | ⟨off, v, r, hturn, -, -, hreg, -, hb, -⟩ |
    ⟨_, v, -, -, -, -, -, hb⟩ := hcases
  · simp [hb]
  · exact ⟨.inr (.inl hturn), .inr (.inl hturn)⟩
  · simp [hb]
  · obtain rfl := (regAt_eq_some_iff off r).1 hreg
    rw [hb]
    constructor
    · obtain hsame | ⟨rfl, hidle, hv⟩ := writeRegister_counterHi r v s.block
      · exact .inl hsame
      · exact .inr (.inr ⟨hidle, by rw [hv]; exact hturn⟩)
    · obtain hsame | ⟨rfl, hidle, hv⟩ := writeRegister_counterLo r v s.block
      · exact .inl hsame
      · exact .inr (.inr ⟨hidle, by rw [hv]; exact hturn⟩)
  · obtain ⟨hhi, hlo⟩ := acceptWord_counter s.cfg v s.block
    rw [hb]
    split
    · exact ⟨.inl rfl, .inl rfl⟩
    · exact ⟨.inl hhi, .inl hlo⟩

/-! ### STATUS (R41, R54, R279) -/

/-- What a register write does to STATUS: nothing, WIGN set, or the W1C of a write to STATUS (R41, R254). -/
theorem writeRegister_status_cases (r : Reg) (v : Word) (b : Block) :
    (writeRegister r v b).status = b.status ∨ (writeRegister r v b).status = { b.status with wign := true } ∨
      (r = .status ∧ writeRegister r v b = statusW1C v b) := by
  cases r with
  | status => exact .inr (.inr ⟨rfl, rfl⟩)
  | _ =>
    unfold writeRegister
    split
    · exact .inr (.inl rfl)
    · exact .inl rfl

/-- Settles O31: WIGN is cleared by RESET and by W1C only. -/
theorem wignIsSticky : Obligations.WignIsSticky := by
  intro s t hstep hw
  obtain ⟨-, -, hcases⟩ := step_cases s t hstep
  obtain ⟨-, hb, -⟩ | ⟨hturn, -⟩ | ⟨-, hb⟩ | ⟨off, v, r, hturn, -, -, hreg, -, hb, -⟩ |
    ⟨_, v, -, -, -, -, -, hb⟩ := hcases
  · exact .inl (by rw [hb, coreStep_wign, hw])
  · exact .inr (.inl hturn)
  · exact .inl (by rw [hb, hw])
  · obtain hsame | hset | ⟨rfl, hclear⟩ := writeRegister_status_cases r v s.block
    · exact .inl (by rw [hb, hsame, hw])
    · exact .inl (by rw [hb, hset])
    · obtain rfl := (regAt_eq_some_iff off .status).1 hreg
      have hwign : t.block.status.wign = !v.getLsbD 3 := by
        rw [hb, hclear]
        show (s.block.status.wign && !v.getLsbD 3) = _
        rw [hw, Bool.true_and]
      cases hbit : v.getLsbD 3 with
      | false => exact .inl (by rw [hwign, hbit]; rfl)
      | true => exact .inr (.inr ⟨v, hbit, by rw [hwign, hbit]; rfl, hturn⟩)
  · refine .inl ?_
    rw [hb]
    split
    · rfl
    · rw [acceptWord_wign, hw]

/-- Acceptance of a word that leaves ERR = 1 leaves DONE = 1 (R255, R256). -/
theorem acceptWord_err_done (cfg : Config) (w : Word) (b : Block) (h : (acceptWord cfg w b).status.err = true) :
    (acceptWord cfg w b).status.done = true := by
  have haccept : ∀ op e, (acceptCommand cfg op e b).status.err = true →
      (acceptCommand cfg op e b).status.done = true := by
    intro op e herr
    cases e with
    | none => exact Bool.noConfusion herr
    | some e => simp [acceptCommand, endInError_status]
  unfold acceptWord at h ⊢
  cases hd : decode w with
  | error e => rfl
  | ok i =>
    rw [hd] at h
    cases i with
    | zeroize => rfl
    | hmac => exact haccept .hmac _ h
    | trunc => exact haccept .trunc _ h
    | hotp => exact haccept .hotp _ h

/-- Settles O32: a completion and an error set DONE, so only W1C can leave ERR without it. -/
theorem errWithoutDoneComesFromTheHost : Obligations.ErrWithoutDoneComesFromTheHost := by
  intro s t hstep herr hdone
  obtain ⟨-, -, hcases⟩ := step_cases s t hstep
  obtain ⟨-, hb, -⟩ | ⟨-, hb, -⟩ | ⟨-, hb⟩ | ⟨off, v, r, hturn, -, -, hreg, -, hb, -⟩ |
    ⟨_, v, -, -, -, -, -, hb⟩ := hcases <;> rw [hb] at herr hdone
  · obtain ⟨-, h⟩ | ⟨op, -, -, h⟩ | ⟨op, -, -, h⟩ := coreStep_cases s.block <;> rw [h] at herr hdone
    · exact .inl ⟨herr, hdone⟩
    · exact .inl ⟨herr, hdone⟩
    · rw [complete_status] at hdone
      exact Bool.noConfusion hdone
  · exact Bool.noConfusion herr
  · exact .inl ⟨herr, hdone⟩
  · obtain hsame | hset | ⟨rfl, hclear⟩ := writeRegister_status_cases r v s.block
    · rw [hsame] at herr hdone
      exact .inl ⟨herr, hdone⟩
    · rw [hset] at herr hdone
      exact .inl ⟨herr, hdone⟩
    · obtain rfl := (regAt_eq_some_iff off .status).1 hreg
      rw [hclear] at herr hdone
      have herr' : (s.block.status.err && !v.getLsbD 2) = true := herr
      have hdone' : (s.block.status.done && !v.getLsbD 1) = false := hdone
      simp only [Bool.and_eq_true, Bool.not_eq_true', Bool.and_eq_false_iff, Bool.not_eq_false'] at herr' hdone'
      obtain ⟨herr0, hbit2⟩ := herr'
      obtain hdone0 | hbit1 := hdone'
      · exact .inl ⟨herr0, hdone0⟩
      · exact .inr ⟨v, hbit1, hbit2, hturn⟩
  · cases hbusy : busy s.block with
    | true =>
      rw [hbusy] at herr hdone
      exact .inl ⟨herr, hdone⟩
    | false =>
      rw [hbusy] at herr hdone
      rw [if_neg Bool.false_ne_true] at herr hdone
      rw [acceptWord_err_done _ _ _ herr] at hdone
      exact Bool.noConfusion hdone

/-! ### The interrupt line (R280, R281) -/

/-- Settles O33: `irq` is read off DONE, ERR and the enables, which acceptance and the ends of a command fix. -/
theorem interruptFollowsTheCommand : Obligations.InterruptFollowsTheCommand := by
  refine ⟨fun s op hidle hpass => ⟨_, exec_accepts op s hidle hpass, ?_⟩, fun s t hinv hstep hbusy hend hreset => ?_,
    fun s hidle => ⟨_, (exec_eq_commandWrite .zeroize s).trans (commandWrite_idle _ s hidle), ?_⟩,
    fun s op hidle hfail => ?_, fun s rest w e h hidle hdec => ⟨_, step_write_cmd s rest w h, ?_⟩⟩
  · simp [irq, runningStatus]
  · obtain ⟨op, hp⟩ := (busy_eq_true _).1 hbusy
    have hidle : t.block.pending = none := (busy_eq_false _).1 hend
    obtain hsame | ⟨-, hb⟩ := step_operands hstep hp hreset
    · simp only [operands, Prod.mk.injEq] at hsame
      obtain ⟨-, -, -, hpend, -⟩ := hsame
      simp [hpend, hp] at hidle
    · obtain ⟨⟨-, herr⟩, -, -⟩ := Block.Inv.running hinv hp
      simp [hb, irq, doneIE, errIE, complete_status, herr]
  · rw [acceptOf_zeroize]
    simp [irq, doneIE, errIE, doneStatus]
  · cases hc : checksOf op s.cfg s.block with
    | none => exact absurd ((checksOf_none _ _ _).1 hc) hfail
    | some e =>
      refine ⟨_, exec_reports op s e hidle hc, ?_⟩
      simp [irq, doneIE, errIE]
  · rw [hidle, if_neg Bool.false_ne_true, acceptWord_illegal _ _ hdec]
    simp [irq, doneIE, errIE]

end Sys2Proof.Machine

/-! ### The key block, the padding and the compressions of an HMAC (spec/41_hmac.md R171 to R177; 42_sha.md R190) -/

namespace Sys2Proof.Machine

/-! ### Zero bytes at the end of a key (R177) -/

/-- K0 fills the key with zero bytes, so a zero byte at its end is one of them (R171). -/
theorem keyBlock_append_zero (alg : Alg) (k : List Byte) (h : k.length < blockLength alg) :
    keyBlock alg (k ++ [0]) = keyBlock alg k := by
  obtain ⟨n, hn⟩ : ∃ n, blockLength alg - k.length = n + 1 := ⟨blockLength alg - k.length - 1, by omega⟩
  have hn' : blockLength alg - (k ++ [0]).length = n := by rw [List.length_append, List.length_singleton]; omega
  rw [keyBlock, keyBlock, hn, hn', List.append_assoc, zeroBytes, zeroBytes, List.replicate_succ]
  rfl

/-- Settles O42: HMAC reads the key through K0 only. -/
theorem trailingZeroKeyByteChangesNothing : Obligations.TrailingZeroKeyByteChangesNothing := by
  intro alg k m h
  simp only [hmac, paddedKey, keyBlock_append_zero alg k h]

/-! ### Padding (R190, R210) -/

@[simp] theorem padMessage_length (blockBytes lenBytes : Nat) (m : List Byte) :
    (padMessage blockBytes lenBytes m).length = m.length + 1 +
      (2 * blockBytes - lenBytes - 1 - m.length % blockBytes) % blockBytes + lenBytes := by
  simp only [padMessage, List.length_append, List.length_singleton, zeroBytes_length, beBytes_length]

/-- Settles O43: the count of zero bytes is below the block, so no smaller one gives the same remainder. -/
theorem paddingIsTheLeast : Obligations.PaddingIsTheLeast := by
  intro m
  refine ⟨⟨_, rfl, ?_, fun j hj => ?_, ?_⟩, ⟨_, rfl, ?_, fun j hj => ?_, ?_⟩⟩
  · omega
  · omega
  · rw [padMessage_length]; omega
  · omega
  · omega
  · rw [padMessage_length]; omega

/-! ### Four compressions (R176) -/

/-- A padded message of two blocks' length parses into two blocks (R191, R210). -/
theorem exists_two_blocks (w : Nat) (padded : List Byte) (h : padded.length / (2 * w) = 2) :
    ∃ b1 b2, messageBlocks w padded = [b1, b2] :=
  List.length_eq_two.1 (by rw [messageBlocks, List.length_map, pieces_length, h])

/-- A padded key is one block long (R171, R172). -/
theorem paddedKey_length (alg : Alg) (pad : Byte) (k : List Byte) (h : k.length ≤ blockLength alg) :
    (paddedKey alg pad k).length = blockLength alg := by
  simp [paddedKey, xorBytes, keyBlock, h]

/-- HMAC of two-block messages takes four compressions, whatever the hash that folds a compression over the blocks of
its padded message. -/
theorem hmac_four_compressions {H : Type} {w lenBytes : Nat} (alg : Alg) (compress : H → List (BitVec w) → H)
    (init : H) (bytes : H → List Byte)
    (hhash : ∀ x, hash alg x = bytes ((messageBlocks w (padMessage (blockLength alg) lenBytes x)).foldl compress init))
    {k m : List Byte}
    (hinner : (padMessage (blockLength alg) lenBytes (paddedKey alg 0x36 k ++ m)).length / (2 * w) = 2)
    (houter : (padMessage (blockLength alg) lenBytes
      (paddedKey alg 0x5C k ++ hash alg (paddedKey alg 0x36 k ++ m))).length / (2 * w) = 2) :
    ∃ b1 b2 b3 b4 : List (BitVec w),
      let inner := compress (compress init b1) b2
      let outer := compress (compress init b3) b4
      messageBlocks w (padMessage (blockLength alg) lenBytes (paddedKey alg 0x36 k ++ m)) = [b1, b2] ∧
      messageBlocks w (padMessage (blockLength alg) lenBytes (paddedKey alg 0x5C k ++ bytes inner)) = [b3, b4] ∧
      hmac alg k m = bytes outer := by
  obtain ⟨b1, b2, h12⟩ := exists_two_blocks w _ hinner
  obtain ⟨b3, b4, h34⟩ := exists_two_blocks w _ houter
  have hin : hash alg (paddedKey alg 0x36 k ++ m) = bytes (compress (compress init b1) b2) := by
    rw [hhash, h12]
    rfl
  refine ⟨b1, b2, b3, b4, h12, ?_, ?_⟩
  · rw [← hin, h34]
  · rw [hmac, hhash (paddedKey alg 0x5C k ++ _), h34]
    rfl

/-- Settles O45: one block of padded key, then at most 64 bytes and the padding, is two blocks, inside and outside. -/
theorem hmacIsFourCompressions : Obligations.HmacIsFourCompressions := by
  intro k m hk hm
  have hlen : ∀ alg pad, (paddedKey alg pad k).length = blockLength alg := fun alg pad =>
    paddedKey_length alg pad k (hk.trans (by cases alg <;> decide))
  refine ⟨?_, ?_, ?_⟩
  · obtain ⟨b1, b2, b3, b4, h⟩ := hmac_four_compressions (lenBytes := 8) .sha1 sha1Compress sha1Init
      (fun h => [h.a, h.b, h.c, h.d, h.e].flatMap fun x => beBytes 4 x.toNat) (fun _ => rfl) (k := k) (m := m)
      (by simp [hlen, hm, blockLength]) (by simp [hlen, blockLength, digestLength])
    exact ⟨b1, b2, b3, b4, h⟩
  · obtain ⟨b1, b2, b3, b4, h⟩ := hmac_four_compressions (lenBytes := 8) .sha256 sha256Compress sha256Init
      (fun h => (hash8Words h).flatMap fun x => beBytes 4 x.toNat) (fun _ => rfl) (k := k) (m := m)
      (by simp [hlen, hm, blockLength]) (by simp [hlen, blockLength, digestLength])
    exact ⟨b1, b2, b3, b4, h⟩
  · obtain ⟨b1, b2, b3, b4, h⟩ := hmac_four_compressions (lenBytes := 16) .sha512 sha512Compress sha512Init
      (fun h => (hash8Words h).flatMap fun x => beBytes 8 x.toNat) (fun _ => rfl) (k := k) (m := m)
      (by simp [hlen, hm, blockLength]) (by simp [hlen, blockLength, digestLength])
    exact ⟨b1, b2, b3, b4, h⟩

end Sys2Proof.Machine

/-! ### The host layer: how a run stands, and what its lines do (spec/30_encoding.md R128 to R130; R278, R323) -/

namespace Sys2Proof.Machine

/-! ### How a run stands after a turn (R278, R323) -/

/-- A line's turn, while the run has not ended. -/
theorem runTurn_line (r : HostRun) (l : HostLine) (hs : r.status ≠ .finished) (hl : r.program[r.place]? = some l) :
    runTurn .line r = executeLine l (recordLine l r) := by
  simp only [runTurn, if_neg hs, lineTurn, hl]

/-- A line without a transaction records nothing. -/
theorem recordLine_of_none (l : HostLine) (r : HostRun) (h : lineTransaction r.vars l = none) :
    recordLine l r = r := by
  simp [recordLine, h]

/-- A line other than `halt` does not end the run. -/
theorem executeLine_status (l : HostLine) (r : HostRun) (h : l ≠ .halt) :
    (executeLine l r).status = r.status ∨ (executeLine l r).status = .faulted := by
  cases l with
  | halt => exact absurd rfl h
  | wr reg v => exact agentTurn_status _ r
  | rd reg x => exact agentTurn_status _ r
  | ifGoto c l => simp only [executeLine]; split <;> exact .inl rfl
  | _ => exact .inl rfl

/-- A turn leaves how the run stands, or marks it faulted, or is a `halt` that ends it (R278, R323). -/
theorem runTurn_status_cases (t : Turn) (r : HostRun) :
    (runTurn t r).status = r.status ∨ (runTurn t r).status = .faulted ∨
      (t = .line ∧ r.program[r.place]? = some .halt ∧ r.status = .running ∧ r.machine.block.pending = none ∧
        runTurn t r = { r with status := .finished }) := by
  by_cases hs : r.status = .finished
  · exact .inl (by simp [runTurn, hs])
  cases t with
  | agent e =>
    have hturn : runTurn (.agent e) r = agentTurn e r := if_neg hs
    rw [hturn]
    exact (agentTurn_status e r).imp_right .inl
  | line =>
    cases hl : r.program[r.place]? with
    | none => exact .inl (by simp [runTurn, lineTurn, hl])
    | some l =>
      rw [runTurn_line r l hs hl]
      by_cases hhalt : l = .halt
      · subst hhalt
        have hexec : executeLine .halt r = if busy r.machine.block then agentTurn .core r
            else if r.status = .running then { r with status := .finished } else r := rfl
        rw [recordLine_of_none _ _ rfl, hexec]
        split
        · exact (agentTurn_status .core r).imp_right .inl
        · rename_i hbusy
          have hidle : r.machine.block.pending = none := (busy_eq_false _).1 (Bool.eq_false_of_not_eq_true hbusy)
          split
          · rename_i hrun
            exact .inr (.inr ⟨rfl, rfl, hrun, hidle, rfl⟩)
          · exact .inl rfl
      · exact (executeLine_status l (recordLine l r) hhalt).imp_right .inl

/-- Settles O48: the one way a turn ends a run is the `halt` of `runTurn_status_cases`. -/
theorem runsEndOnlyAtAnIdleHalt : Obligations.RunsEndOnlyAtAnIdleHalt := by
  intro r t hs hend
  obtain hsame | hfault | ⟨ht, hl, hrun, hidle, heq⟩ := runTurn_status_cases t r
  · exact absurd (hsame.symm.trans hend) hs
  · simp [hfault] at hend
  · exact ⟨ht, hl, hrun, by rw [heq], hend, by rw [heq]; exact hidle⟩

/-- A turn that faults marks the run and changes nothing else (R278). -/
theorem agentTurn_of_fault (e : Event) (r : HostRun) (f : Fault) (h : turnFault r.machine.cfg e = some f) :
    agentTurn e r = { r with status := .faulted } := by
  have hstep : step { r.machine with inbox := [e] } = .fault f := (step_eq_fault_iff _ f).2 ⟨e, [], rfl, h⟩
  simp only [agentTurn, hstep]

/-- Settles O49: the access faults, and no turn takes a faulted run out of that. -/
theorem busErrorsSpoilTheRunOnly : Obligations.BusErrorsSpoilTheRunOnly := by
  refine ⟨fun r off width v hlt hill hs => ?_, fun r ts hf => ?_⟩
  · have hfault : accessFault r.machine.cfg (otpBase r.machine.cfg + off) width = some (.busError off width) :=
      (accessFault_eq_some_iff _ _ _ _).2 ⟨off, hlt, hill, rfl, rfl⟩
    constructor <;> rw [runTurn, if_neg hs]
    · exact agentTurn_of_fault _ r _ hfault
    · exact agentTurn_of_fault _ r _ hfault
  · induction ts generalizing r with
    | nil => exact hf
    | cons t ts ih =>
      refine ih (runTurn t r) ?_
      obtain hsame | hfault | ⟨-, -, hrun, -⟩ := runTurn_status_cases t r
      · exact hsame.trans hf
      · exact hfault
      · simp [hf] at hrun

/-! ### What each kind of line does (R128, R129) -/

/-- The machine after the host's write of a register: the write never faults. -/
def writtenMachine (m : State) (reg : Reg) (v : Word) : State :=
  { m with inbox := [], reply := .written, block := blockWrite m.cfg reg.offset v m.block }

theorem step_writtenMachine (m : State) (reg : Reg) (v : Word) :
    step { m with inbox := [.host (.write (otpBase m.cfg + reg.offset) 4 v)] } =
      .next (writtenMachine m reg v) := by
  rw [step_write { m with inbox := [.host (.write (otpBase m.cfg + reg.offset) 4 v)] } [] reg.offset v
    (offset_lt reg).1 (offset_lt reg).2 rfl, busWrite_eq_blockWrite]
  rfl

/-- A WR line is its write, the next line, and its transaction (R128, R129). -/
theorem runTurn_wr (r : HostRun) (reg : Reg) (e : Expr) (hs : r.status ≠ .finished)
    (hl : r.program[r.place]? = some (.wr reg e)) :
    runTurn .line r = { r with
      place := r.place + 1
      machine := writtenMachine r.machine reg (BitVec.ofNat 32 (evalExpr r.vars e))
      made := r.made ++ [.write reg.offset (BitVec.ofNat 32 (evalExpr r.vars e))] } := by
  rw [runTurn_line r _ hs hl]
  exact congrArg nextLine (agentTurn_next _ (recordLine (.wr reg e) r) _ (step_writtenMachine r.machine reg _))

/-- An RD line is its read, into its variable, the next line, and its transaction (R128, R129). -/
theorem runTurn_rd (r : HostRun) (reg : Reg) (x : String) (m : State) (hs : r.status ≠ .finished)
    (hl : r.program[r.place]? = some (.rd reg x))
    (hm : step { r.machine with inbox := [.host (.read (otpBase r.machine.cfg + reg.offset) 4)] } = .next m) :
    runTurn .line r = { r with
      place := r.place + 1
      vars := (x, replyWord m) :: r.vars
      machine := m
      made := r.made ++ [.read reg.offset] } := by
  rw [runTurn_line r _ hs hl]
  have hturn := agentTurn_next (.host (.read (registerAddress (recordLine (.rd reg x) r) reg) 4))
    (recordLine (.rd reg x) r) m hm
  simp only [executeLine, hturn]
  rfl

/-- A jump goes to a line with its label when there is one (R128). -/
theorem getElem?_findIdx_label (p : List HostLine) (n : Label) (h : .label n ∈ p) :
    p[p.findIdx (fun x => x == .label n)]? = some (.label n) := by
  have hlt : p.findIdx (fun x => x == .label n) < p.length :=
    List.findIdx_lt_length_of_exists ⟨_, h, beq_self_eq_true _⟩
  rw [List.getElem?_eq_getElem hlt, eq_of_beq (List.findIdx_getElem (w := hlt))]

/-- Settles O51: each line's turn is `executeLine` of it, and only WR and RD reach the machine. -/
theorem linesMakeTheirTransactions : Obligations.LinesMakeTheirTransactions := by
  intro r l hs hl
  have hquiet : lineTransaction r.vars l = none → runTurn .line r = executeLine l r := fun h => by
    rw [runTurn_line r l hs hl, recordLine_of_none l r h]
  refine ⟨?_, ?_, ?_, ?_, ?_, ?_⟩
  · rintro reg e rfl
    exact ⟨_, step_writtenMachine r.machine reg _, runTurn_wr r reg e hs hl⟩
  · rintro reg x rfl
    have hstep := step_read
      { r.machine with inbox := [.host (.read (otpBase r.machine.cfg + reg.offset) 4)] } [] reg.offset
      (offset_lt reg).1 (offset_lt reg).2 rfl
    rw [busRead_offset] at hstep
    exact ⟨_, hstep, rfl, runTurn_rd r reg x _ hs hl hstep⟩
  · rintro x e rfl
    exact hquiet rfl
  · rintro n rfl
    exact hquiet rfl
  · rintro n (rfl | ⟨c, rfl, hc⟩)
    · exact ⟨_, hquiet rfl, getElem?_findIdx_label r.program n⟩
    · refine ⟨_, (hquiet rfl).trans ?_, getElem?_findIdx_label r.program n⟩
      simp only [executeLine, hc, if_true]
      rfl
  · rintro c n rfl hc
    rw [hquiet rfl, executeLine, hc]
    rfl

end Sys2Proof.Machine

/-! ### LDKEY (R129, R130) -/

namespace Sys2Proof.Machine

/-! ### A list of writes, as a program and as stores -/

/-- The lines that write these values to these registers. -/
def writeLines (ws : List (Reg × Nat)) : List HostLine :=
  ws.map fun w => .wr w.1 (.num w.2)

/-- The stores of the writes, one after another. -/
def storeAll (ws : List (Reg × Nat)) (b : Block) : Block :=
  ws.foldl (fun b w => storeRegister w.1 (BitVec.ofNat 32 w.2) b) b

/-- The transactions of the writes. -/
def writeTransactions (ws : List (Reg × Nat)) : List Transaction :=
  ws.map fun w => .write w.1.offset (BitVec.ofNat 32 w.2)

@[simp] theorem storeRegister_pending (r : Reg) (v : Word) (b : Block) :
    (storeRegister r v b).pending = b.pending := by
  cases r <;> rfl

/-- While idle a write to a register other than CMD is its store (R253). -/
theorem blockWrite_idle (cfg : Config) (r : Reg) (v : Word) (b : Block) (hr : r ≠ .cmd) (h : busy b = false) :
    blockWrite cfg r.offset v b = storeRegister r v b := by
  rw [blockWrite, regAt_offset]
  simp only [if_neg hr, writeRegister_idle r v b h]

/-- A WR line of a number to a register other than CMD, against an idle block. -/
theorem runTurn_wr_idle (r : HostRun) (reg : Reg) (n : Nat) (hr : reg ≠ .cmd) (hrun : r.status = .running)
    (hidle : busy r.machine.block = false) (hl : r.program[r.place]? = some (.wr reg (.num n))) :
    let t := runTurn .line r
    t.program = r.program ∧ t.status = .running ∧ t.place = r.place + 1 ∧
      t.made = r.made ++ [.write reg.offset (BitVec.ofNat 32 n)] ∧
      t.machine.block = storeRegister reg (BitVec.ofNat 32 n) r.machine.block := by
  dsimp only
  rw [runTurn_wr r reg (.num n) (by simp [hrun]) hl]
  exact ⟨rfl, hrun, rfl, rfl, blockWrite_idle _ _ _ _ hr hidle⟩

/-- Run from their first line against an idle block, the lines of the writes store them in turn. -/
theorem runTurns_writeLines (ws : List (Reg × Nat)) (hcmd : ∀ w ∈ ws, w.1 ≠ .cmd) (r : HostRun)
    (hrun : r.status = .running) (hidle : busy r.machine.block = false)
    (hprog : r.program.drop r.place = writeLines ws) :
    let t := runTurns (List.replicate ws.length .line) r
    t.status = .running ∧ t.place = r.place + ws.length ∧ t.made = r.made ++ writeTransactions ws ∧
      t.machine.block = storeAll ws r.machine.block := by
  induction ws generalizing r with
  | nil => exact ⟨hrun, rfl, (List.append_nil _).symm, rfl⟩
  | cons w ws ih =>
    have hline : r.program[r.place]? = some (.wr w.1 (.num w.2)) := by
      rw [← Nat.add_zero r.place, ← List.getElem?_drop, hprog]
      rfl
    obtain ⟨hprog', hrun', hplace', hmade', hblock'⟩ :=
      runTurn_wr_idle r w.1 w.2 (hcmd w List.mem_cons_self) hrun hidle hline
    have hidle' : busy (runTurn .line r).machine.block = false := by
      rw [busy_eq_false, hblock', storeRegister_pending, ← busy_eq_false]
      exact hidle
    have hrest : (runTurn .line r).program.drop (runTurn .line r).place = writeLines ws := by
      rw [hprog', hplace', ← List.drop_drop, hprog]
      rfl
    obtain ⟨hst, hpl, hmade, hb⟩ := ih (fun w' hw' => hcmd w' (List.mem_cons_of_mem _ hw')) _ hrun' hidle' hrest
    refine ⟨hst, ?_, ?_, ?_⟩
    · exact hpl.trans (by rw [hplace', List.length_cons]; omega)
    · exact hmade.trans (by rw [hmade', List.append_assoc]; rfl)
    · exact hb.trans (by rw [hblock']; rfl)

/-! ### The words of a byte string -/

/-- The byte string followed by zero bytes to a multiple of 4 (R129). -/
def paddedString (S : List Byte) : List Byte :=
  S ++ zeroBytes ((4 - S.length % 4) % 4)

/-- Word i of a byte string is the four bytes at 4i of the padded string (R129). -/
theorem stringWords_eq (S : List Byte) :
    stringWords S = (List.range ((S.length + 3) / 4)).map fun i => be (window (paddedString S) (4 * i) 4) := by
  refine List.ext_getElem? fun i => ?_
  rw [stringWords, List.getElem?_map, List.getElem?_map]
  by_cases hi : i < (S.length + 3) / 4
  · rw [pieces_getElem? _ _ _ _ hi, List.getElem?_range hi]
    rfl
  · rw [List.getElem?_eq_none (by rw [pieces_length]; omega), List.getElem?_eq_none (by simp; omega)]
    rfl

@[simp] theorem stringWords_length (S : List Byte) : (stringWords S).length = (S.length + 3) / 4 := by
  simp [stringWords_eq]

theorem paddedString_length (S : List Byte) : (paddedString S).length = 4 * ((S.length + 3) / 4) := by
  rw [paddedString, List.length_append, zeroBytes_length]
  omega

/-- Encoding word i of a padded string gives its four bytes back. -/
theorem beBytes_word_of_string (S : List Byte) (i : Nat) (hi : i < (S.length + 3) / 4) :
    beBytes 4 (BitVec.ofNat 32 (be (window (paddedString S) (4 * i) 4))).toNat =
      window (paddedString S) (4 * i) 4 := by
  have hlen : (window (paddedString S) (4 * i) 4).length = 4 :=
    window_length _ _ _ (by rw [paddedString_length]; omega)
  have hlt := be_lt (window (paddedString S) (4 * i) 4)
  have hback := beBytes_be (window (paddedString S) (4 * i) 4)
  rw [hlen] at hlt hback
  rw [BitVec.toNat_ofNat, Nat.mod_eq_of_lt (by omega), hback]

/-! ### The KEY words after the writes -/

/-- Writes of words to the KEY registers from KEY`start` on (R129). -/
def keyWrites (ws : List Nat) (start : Nat) : List (Reg × Nat) :=
  (ws.zipIdx start).map fun wi => (.key (Fin.ofNat 16 wi.2), wi.1)

/-- The writes of LDKEY: KEY_LEN, then the words of the string (R129). -/
def ldkeyWrites (S : List Byte) : List (Reg × Nat) :=
  (.keyLen, S.length) :: keyWrites (stringWords S) 0

theorem expandPseudo_ldkey (n : Nat) (S : List Byte) : expandPseudo n (.ldkey S) = writeLines (ldkeyWrites S) := by
  simp [expandPseudo, writeLines, ldkeyWrites, keyWrites]

theorem ldkeyWrites_ne_cmd (S : List Byte) : ∀ w ∈ ldkeyWrites S, w.1 ≠ .cmd := by
  intro w hw
  obtain rfl | hw := List.mem_cons.1 hw
  · simp
  · obtain ⟨wi, -, rfl⟩ := List.mem_map.1 hw
    simp

/-- The KEY words after words are stored from KEY`start` on: those words, and the old ones around them. -/
theorem storeAll_keyWrites (ws : List Nat) (start : Nat) (b : Block) (h : start + ws.length ≤ 16) :
    ∃ k : Buffer, storeAll (keyWrites ws start) b = { b with key := k } ∧
      ∀ i : Fin 16, k[i] =
        if start ≤ i.val ∧ i.val < start + ws.length then BitVec.ofNat 32 (ws.getD (i.val - start) 0) else b.key[i] := by
  induction ws generalizing start b with
  | nil => exact ⟨b.key, rfl, fun i => by rw [if_neg (by simp)]⟩
  | cons w ws ih =>
    rw [List.length_cons] at h
    obtain ⟨k, hk, hget⟩ := ih (start + 1) (storeRegister (.key (Fin.ofNat 16 start)) (BitVec.ofNat 32 w) b) (by omega)
    refine ⟨k, hk, fun i => ?_⟩
    have hfirst : (storeRegister (.key (Fin.ofNat 16 start)) (BitVec.ofNat 32 w) b).key[i] =
        if start = i.val then BitVec.ofNat 32 w else b.key[i] := by
      have hval : (Fin.ofNat 16 start).val = start := Nat.mod_eq_of_lt (by omega)
      show (b.key.set (Fin.ofNat 16 start) (BitVec.ofNat 32 w))[i.val] = _
      rw [Vector.getElem_set]
      simp only [hval]
      rfl
    rw [hget i, hfirst, List.length_cons]
    obtain hlt | heq | hgt : i.val < start ∨ start = i.val ∨ start + 1 ≤ i.val := by omega
    · rw [if_neg (by omega), if_neg (by omega), if_neg (by omega)]
    · rw [if_neg (by omega), if_pos heq, if_pos (by omega), heq, Nat.sub_self, List.getD_cons_zero]
    · have hidx : i.val - start = i.val - (start + 1) + 1 := by omega
      rw [if_neg (by omega : ¬start = i.val), hidx, List.getD_cons_succ]
      exact if_congr (by omega) rfl rfl

/-- KEY_LEN keeps a length of at most 64 whole (R44). -/
theorem keyLen_mask (n : Nat) (h : n ≤ 64) : BitVec.ofNat 32 n &&& 0x7F = BitVec.ofNat 32 n := by
  refine BitVec.eq_of_toNat_eq ?_
  rw [BitVec.toNat_and, BitVec.toNat_ofNat, show (0x7F : Word).toNat = 2 ^ 7 - 1 from rfl,
    Nat.and_two_pow_sub_one_eq_mod]
  omega

/-- What the writes of LDKEY leave of an idle block: KEY_LEN is the string's length, the first KEY words are its words,
and everything else is as it was (R130). -/
theorem storeAll_ldkeyWrites (S : List Byte) (b : Block) (hS : S.length ≤ 64) :
    ∃ k : Buffer, storeAll (ldkeyWrites S) b = { b with keyLen := BitVec.ofNat 32 S.length, key := k } ∧
      (∀ i : Fin 16, i.val < (S.length + 3) / 4 →
        k[i] = BitVec.ofNat 32 (be (window (paddedString S) (4 * i.val) 4))) ∧
      ∀ i : Fin 16, (S.length + 3) / 4 ≤ i.val → k[i] = b.key[i] := by
  obtain ⟨k, hk, hget⟩ := storeAll_keyWrites (stringWords S) 0
    (storeRegister .keyLen (BitVec.ofNat 32 S.length) b) (by rw [stringWords_length]; omega)
  refine ⟨k, ?_, fun i hi => ?_, fun i hi => ?_⟩
  · rw [← keyLen_mask S.length hS]
    exact hk
  · rw [hget i, if_pos (by rw [stringWords_length]; omega), stringWords_eq, Nat.sub_zero,
      List.getD_eq_getElem _ _ (by simpa using hi), List.getElem_map, List.getElem_range]
  · rw [hget i, if_neg (by rw [stringWords_length]; omega)]
    rfl

/-- KEY words that begin with the words of S, and a KEY_LEN of its length, hold S as the key (R43, R175). -/
theorem keyOperand_of_words (b : Block) (S : List Byte) (hS : S.length ≤ 64) (hlen : b.keyLen.toNat = S.length)
    (hkey : ∀ i : Fin 16, i.val < (S.length + 3) / 4 →
      b.key[i] = BitVec.ofNat 32 (be (window (paddedString S) (4 * i.val) 4))) : keyOperand b = S := by
  rw [keyOperand_eq_take, hlen]
  refine List.ext_getElem? fun p => ?_
  by_cases hp : p < S.length
  · have hword : p / 4 < (S.length + 3) / 4 := by omega
    have hbyte := bufferBytes_getElem? b.key ⟨p / 4, by omega⟩ ⟨p % 4, by omega⟩
    rw [hkey ⟨p / 4, by omega⟩ hword] at hbyte
    dsimp only at hbyte
    rw [Nat.div_add_mod, beBytes_word_of_string S _ hword, window, List.getElem?_take_of_lt (by omega),
      List.getElem?_drop, Nat.div_add_mod, paddedString, List.getElem?_append_left hp] at hbyte
    rw [List.getElem?_take_of_lt hp, hbyte]
  · rw [List.getElem?_eq_none (by simp; omega), List.getElem?_eq_none (by omega)]

/-- The transactions of the KEY writes (R129). -/
theorem writeTransactions_keyWrites (S : List Byte) (hS : S.length ≤ 64) :
    writeTransactions (keyWrites (stringWords S) 0) = (List.range ((S.length + 3) / 4)).map fun i =>
      .write (0x040 + 4 * i) (BitVec.ofNat 32 (be (window (paddedString S) (4 * i) 4))) := by
  refine List.ext_getElem (by simp [writeTransactions, keyWrites]) fun i hi _ => ?_
  have hlt : i < (S.length + 3) / 4 := by simpa [writeTransactions, keyWrites] using hi
  have hval : i % 16 = i := Nat.mod_eq_of_lt (by omega)
  simp [writeTransactions, keyWrites, Reg.offset, stringWords_eq, hval]

/-- Settles O47: the lines are a list of writes, whose stores set KEY_LEN and the first KEY words. -/
theorem ldkeyLoadsTheKey : Obligations.LdkeyLoadsTheKey := by
  intro r S hS hplace hrun hprog hidle words word
  have hlines : r.program = writeLines (ldkeyWrites S) := hprog.trans (expandPseudo_ldkey 0 S)
  have hcount : r.program.length = (ldkeyWrites S).length := by rw [hlines, writeLines, List.length_map]
  obtain ⟨hst, hpl, hmade, hblock⟩ :=
    runTurns_writeLines _ (ldkeyWrites_ne_cmd S) r hrun hidle (by rw [hplace]; exact hlines)
  obtain ⟨k, hb, hnew, hold⟩ := storeAll_ldkeyWrites S r.machine.block hS
  have hlen : (BitVec.ofNat 32 S.length).toNat = S.length := by rw [BitVec.toNat_ofNat]; omega
  refine ⟨_, rfl, ?_⟩
  rw [hcount, hblock, hb]
  refine ⟨hst, by rw [hpl, hplace, Nat.zero_add], ?_, hlen, hnew, hold, rfl, keyOperand_of_words _ S hS hlen hnew⟩
  rw [hmade]
  exact congrArg (fun l => r.made ++ .write 0x018 (BitVec.ofNat 32 S.length) :: l) (writeTransactions_keyWrites S hS)

end Sys2Proof.Machine
